-- ==== Sys2Proof/Word.lean ====
section
/-! DEFINITION. The words YCORE computes with: CRC words, bytes and 64-bit lengths (00_scope.md R6, R7). -/

namespace Sys2Proof

/-- A 32-bit word: a CRC value, a command word, `STATUS`, `DSTATE` or `DEND` (R6 `CRCW`, R60, R11). -/
abbrev Word := BitVec 32

/-- One byte of a byte sequence or of a buffer (00_scope.md §5.2). -/
abbrev Byte := BitVec 8

/-- A length, count, column or exponent register (R6 `XLEN` = 64); the host port carries this width. -/
abbrev Len := BitVec 64

end Sys2Proof
end

