-- ==== Sys2Proof/Config.lean ====
section
/-! DEFINITION. What an implementation of YCORE fixes: the OPEN parameters of 00_scope.md R6 (R36 of 10_state.md).

The capacities and the choice of size formula are plain data. `Machine.State` carries one `Params`, which no step
changes, and every claim is about every state; so a claim holds for every admissible value, as R6 asks. -/

namespace Sys2Proof.Config

/-- The three byte buffers (R31, R40). -/
inductive Buf where
  | ibuf   -- input: the chunk
  | obuf   -- output
  | nbuf   -- the filename
deriving DecidableEq, Repr

/-- Which `encMaxLen` the machine has (R6, R120): the spec's default formula (R122), or any other formula with the
property of R121. -/
inductive MaxLenRule where
  | dflt
  | custom
deriving DecidableEq, Repr

/-- The OPEN parameters of R6: `IBUF_SIZE`, `OBUF_SIZE`, `NBUF_SIZE` (D3) and `encMaxLen` (D14). -/
structure Params where
  ibufSize : Nat
  obufSize : Nat
  nbufSize : Nat
  maxLen   : MaxLenRule
deriving DecidableEq, Repr

/-- The capacity of one buffer (R31). -/
def Params.size (p : Params) : Buf → Nat
  | .ibuf => p.ibufSize
  | .obuf => p.obufSize
  | .nbuf => p.nbufSize

/-- The admissible values of R6: each capacity is at least 1 and below 2^64. -/
abbrev Params.wf (p : Params) : Prop :=
  (1 ≤ p.ibufSize ∧ p.ibufSize < 2 ^ 64) ∧ (1 ≤ p.obufSize ∧ p.obufSize < 2 ^ 64) ∧
    (1 ≤ p.nbufSize ∧ p.nbufSize < 2 ^ 64)

/-- The parameters `State.reset` carries: DESIGN CHOICE (assumption 1), unsafe. The spec leaves the capacities open;
no statement but `GoodHoldsAtReset` uses them, and only that they are admissible. The formula is the
spec's own default for runners (R122). -/
def Params.dflt : Params :=
  { ibufSize := 65536, obufSize := 65536, nbufSize := 65536, maxLen := .dflt }

/-- The free value behind `MaxLenRule.custom` (assumption 2): any function ℕ × ℕ → ℕ. `Machine.encMaxLen` raises it
to the least bound R121 allows, so that what is assumed of the formula is exactly R121 (R120). -/
opaque customMaxLen : Nat → Nat → Nat

end Sys2Proof.Config
end

