-- ==== Sys2Proof/Machine/State.lean ====
section
/-! DEFINITION. The architectural state of one YCORE instance (10_state.md R10 to R31), the host's side of the port,
and the ways a step can stop. -/

namespace Sys2Proof.Machine

open Sys2Proof.Config (Buf Params)

/-- The twenty registers by name (R11 to R30); their numbers are met only at the host port (`regOfNumber`). -/
inductive Reg where
  | status | a | b | n | r | inLen | outLen | line | col | dstate | dend | consumed | nameLen | psize | part
  | apart | atotal | fcrc | pcrc | maxlen
deriving DecidableEq, Repr

/-- The fault codes of 60_exceptions.md R200 other than `OK`. A command that faults takes the fault entry of R203,
which is a next state: no fault of the block stops the machine. -/
inductive FaultCode where
  | eArg     -- 1: one of the framer's validation errors
  | eCmd     -- 2: illegal command word
  | eRange   -- 3: an operand register holds a value outside what the command accepts
  | eState   -- 4: `DSTATE.S` = 7
  | eOvf     -- 5: the output is longer than `OBUF_SIZE`
deriving DecidableEq, Repr

/-- The seven decoder states of R20. -/
inductive DecState where
  | crlf | eq | cr | none | crlfdt | crlfdtcr | crlfeq
deriving DecidableEq, Repr

/-- The three end markers of R21. -/
inductive EndMarker where
  | none | control | article
deriving DecidableEq, Repr

/-- What the host can do to the block: the five actions of the host port (20_memory.md R42), and the one external
reset (70_reset_and_hazards.md R230), which is a step in the same order. -/
inductive HostAction where
  | regWrite (n : Nat) (v : Len)
  | regRead (n : Nat)
  | bufWrite (b : Buf) (i : Nat) (v : Byte)
  | bufRead (b : Buf) (i : Nat)
  | issue (w : Word)
  | reset
deriving DecidableEq, Repr

/-- A value the block has returned to the host: of a `RegRead`, zero-extended to the port (R32), or of a `BufRead`. -/
inductive Reply where
  | reg (v : Len)
  | byte (v : Byte)
deriving DecidableEq, Repr

/-- A buffer's written bytes (R31, R48): strictly rising indices. An index that is not listed was never written. -/
abbrev Memory := List Host.Cell

/-- The canonical form of a buffer: indices strictly rising, so that equal buffers are equal data. -/
abbrev Memory.wf (m : Memory) : Prop := m.Pairwise (fun c d => c.1 < d.1)

/-- What an unlisted byte reads as: no value (R48). The model supplies none; it refuses the read (93 U8). -/
def unlistedByte : Option Byte := Option.none

/-- The machine never stops with a fault: the spec's faults are writes of `STATUS` (R203), hence next states, and what
the spec gives no meaning the model refuses, as 93 U8, U9, U12 say. The type has no constructor. -/
inductive Fault where
deriving DecidableEq, Repr

/-- Why a step has no meaning. -/
inductive Refusal where
  /-- An instruction not modelled yet; raised by `exec` alone. Safe: the model stops where the block goes on. -/
  | notModelled (mnemonic : String)
  /-- A `BufRead`, or a command, would evaluate a byte of this buffer that holds no value (R48, R49; U8, U12). Safe:
  the spec's model refuses it and a block goes on with some value. -/
  | unwrittenByte (b : Buf)
  /-- `RegRead` or `RegWrite` of a register number from 20 up (R32; U9). Safe: the spec gives it no meaning. -/
  | noSuchRegister (n : Nat)
  /-- `BufRead` or `BufWrite` at or beyond the buffer's capacity (R42; U9). Safe: the spec gives it no meaning. -/
  | noSuchIndex (b : Buf) (i : Nat)
  /-- `BufWrite` to `OBUF` (R31, R42; U9). Safe: the spec gives it no meaning. -/
  | obufWrittenByHost
deriving DecidableEq, Repr

/-- The state. First the parameters (not state by R36: no step changes them), then the twenty registers in the order of
their numbers, the three buffers, and the host's side of the port (the model's own: what the host does next, and what
it has been told, newest first). -/
structure State where
  /-- The OPEN parameters of R6. -/
  cfg : Params
  /-- Register 0, `STATUS` (R11). -/
  status : Word
  /-- Register 1, `A` (R12). -/
  a : Word
  /-- Register 2, `B` (R13). -/
  b : Word
  /-- Register 3, `N` (R14). -/
  n : Len
  /-- Register 4, `R` (R15). -/
  r : Word
  /-- Register 5, `IN_LEN` (R16). -/
  inLen : Len
  /-- Register 6, `OUT_LEN` (R17). -/
  outLen : Len
  /-- Register 7, `LINE` (R18). -/
  line : Len
  /-- Register 8, `COL` (R19). -/
  col : Len
  /-- Register 9, `DSTATE` (R20): 32 bits, of which bits 2..0 are the field `S`. -/
  dstate : Word
  /-- Register 10, `DEND` (R21): 32 bits, of which bits 1..0 are the field `E`. -/
  dend : Word
  /-- Register 11, `CONSUMED` (R22). -/
  consumed : Len
  /-- Register 12, `NAME_LEN` (R23). -/
  nameLen : Len
  /-- Register 13, `PSIZE` (R24), read as signed by `FRM.MULTI`. -/
  psize : Len
  /-- Register 14, `PART` (R25). -/
  part : Len
  /-- Register 15, `APART` (R26). -/
  apart : Len
  /-- Register 16, `ATOTAL` (R27). -/
  atotal : Len
  /-- Register 17, `FCRC` (R28). -/
  fcrc : Word
  /-- Register 18, `PCRC` (R29). -/
  pcrc : Word
  /-- Register 19, `MAXLEN` (R30). -/
  maxlen : Len
  /-- The input buffer (R31). -/
  ibuf : Memory
  /-- The output buffer (R31). -/
  obuf : Memory
  /-- The name buffer (R31). -/
  nbuf : Memory
  /-- What the host will do, next action first (assumption 3). -/
  script : List HostAction
  /-- What the block has returned to the host, newest first (assumption 3). -/
  replies : List Reply
deriving DecidableEq, Repr

/-- The block right after reset (R230, R231): every register at the spec's reset value, no byte of any buffer written.
The host has done nothing yet. The parameters are those of `Params.dflt` (assumption 1). -/
def State.reset : State :=
  { cfg := Params.dflt
    status := 0, a := 0, b := 0, n := 0, r := 0, inLen := 0, outLen := 0, line := 128, col := 0, dstate := 0,
    dend := 0, consumed := 0, nameLen := 0, psize := 0, part := 0, apart := 0, atotal := 0, fcrc := 0, pcrc := 0,
    maxlen := 0
    ibuf := [], obuf := [], nbuf := []
    script := [], replies := [] }

end Sys2Proof.Machine
end

