-- ==== Sys2Proof/Syntax.lean ====
section
/-! DEFINITION. The thirteen commands of YCORE, one constructor per row of the opcode map (30_encoding.md R62). A
command carries no operand but the flag `F` of the two format-F rows (R61, R69). -/

namespace Sys2Proof

/-- The commands of R62. The flag of `ENC.BLK` is `END` (`isEnd`), that of `DEC.BLK` is `RAW` (`isRaw`). -/
inductive Instr where
  | crcUpd                   -- CRC.UPD     R90
  | crcComb                  -- CRC.COMB    R91
  | crcZeros                 -- CRC.ZEROS   R92
  | crcUnzero                -- CRC.UNZERO  R93
  | crcMul                   -- CRC.MUL     R94
  | crcPow2                  -- CRC.POW2    R95
  | crcPow256                -- CRC.POW256  R96
  | encBlk (isEnd : Bool)    -- ENC.BLK     R117
  | encMaxlen                -- ENC.MAXLEN  R123
  | decBlk (isRaw : Bool)    -- DEC.BLK     R146
  | decInc                   -- DEC.INC     R147
  | frmSingle                -- FRM.SINGLE  R178
  | frmMulti                 -- FRM.MULTI   R179
deriving DecidableEq, Repr

end Sys2Proof
end

