-- ==== Sys2Proof/WellFormed.lean ====
section
/-! DEFINITION. What is well formed: command words by the match/mask table (30_encoding.md R62, R63), instructions, and
host actions (20_memory.md R42; 93 U9). The decoder is written from the bit fields of R61 and does not use this table,
so that the two check each other. -/

namespace Sys2Proof

/-- One row of R62: a word selects the row when `(w and mask) = match`. -/
structure OpRow where
  sel  : Word
  mask : Word
deriving DecidableEq, Repr

/-- The opcode map of R62, in its order. -/
def opcodeMap : List OpRow :=
  [ ⟨0x00000010#32, 0xFFFFFFFF#32⟩, ⟨0x00000011#32, 0xFFFFFFFF#32⟩, ⟨0x00000012#32, 0xFFFFFFFF#32⟩,
    ⟨0x00000013#32, 0xFFFFFFFF#32⟩, ⟨0x00000014#32, 0xFFFFFFFF#32⟩, ⟨0x00000015#32, 0xFFFFFFFF#32⟩,
    ⟨0x00000016#32, 0xFFFFFFFF#32⟩ ] ++
  [ ⟨0x00000020#32, 0xFFFFFEFF#32⟩, ⟨0x00000021#32, 0xFFFFFFFF#32⟩ ] ++
  [ ⟨0x00000030#32, 0xFFFFFEFF#32⟩, ⟨0x00000031#32, 0xFFFFFFFF#32⟩ ] ++
  [ ⟨0x00000040#32, 0xFFFFFFFF#32⟩, ⟨0x00000041#32, 0xFFFFFFFF#32⟩ ]

/-- `w` selects the row. -/
def OpRow.selects (row : OpRow) (w : Word) : Bool := w &&& row.mask == row.sel

/-- `w` is one of the fifteen legal command words (R62); every other word is illegal (R63). -/
def legalWord (w : Word) : Bool := opcodeMap.any (fun row => row.selects w)

/-- Every term of `Instr` is well formed: its only operand is the flag of a format-F command, and both values of the flag
are legal there (R62, R64). There is no ill-formed instruction to refuse; what can be ill formed is a command word
(`legalWord`) or a host action (`HostAction.wf`). One line per constructor, so that a new command must answer here. -/
def Instr.wf : Instr → Bool
  | .crcUpd | .crcComb | .crcZeros | .crcUnzero | .crcMul | .crcPow2 | .crcPow256 => true
  | .encBlk _ | .encMaxlen => true
  | .decBlk _ | .decInc => true
  | .frmSingle | .frmMulti => true

/-- The host actions R42 gives a meaning: register numbers 0 to 19 (R32), buffer indices below the capacity, and no host
write of `OBUF`. `Issue` of any word has a meaning (an illegal one faults, R63), and so has reset. -/
def Machine.HostAction.wf (p : Config.Params) : Machine.HostAction → Bool
  | .regWrite n _ => n < 20
  | .regRead n => n < 20
  | .bufWrite b i _ => b ≠ .obuf && i < p.size b
  | .bufRead b i => i < p.size b
  | .issue _ => true
  | .reset => true

end Sys2Proof
end

