-- ==== Sys2Proof/Decode.lean ====
section
/-! DEFINITION. The decoder, total on 32-bit words and rejecting by name, and the encoder, both written from the fields of
30_encoding.md R61 and the opcodes of R62. A command word is the argument of `Issue` and is never laid out in bytes
(R53, R60), so no byte order enters. -/

namespace Sys2Proof

/-- Why a word is illegal (R63). The block reports every case as `E_CMD`; the names are the model's. -/
inductive Reject where
  | reservedBits      -- a bit of [31:9] is not zero
  | unknownOpcode     -- `OPC` is not in the table
  | flagOnFormatN     -- `F` = 1 on a format-N command
deriving DecidableEq, Repr

/-- Field `OPC`, bits 7..0 (R61). -/
def opcField (w : Word) : BitVec 8 := w.extractLsb' 0 8

/-- Field `F`, bit 8 (R61). -/
def flagField (w : Word) : Bool := w.getLsbD 8

/-- The reserved field, bits 31..9 (R61). -/
def rsvField (w : Word) : BitVec 23 := w.extractLsb' 9 23

/-- The format-N command of an opcode (R62): unit in the high nibble, function in the low one. -/
def formatN (opc : BitVec 8) : Option Instr :=
  if opc = 0x10#8 then some .crcUpd
  else if opc = 0x11#8 then some .crcComb
  else if opc = 0x12#8 then some .crcZeros
  else if opc = 0x13#8 then some .crcUnzero
  else if opc = 0x14#8 then some .crcMul
  else if opc = 0x15#8 then some .crcPow2
  else if opc = 0x16#8 then some .crcPow256
  else if opc = 0x21#8 then some .encMaxlen
  else if opc = 0x31#8 then some .decInc
  else if opc = 0x40#8 then some .frmSingle
  else if opc = 0x41#8 then some .frmMulti
  else none

/-- The format-F command of an opcode with its flag (R62). -/
def formatF (opc : BitVec 8) (f : Bool) : Option Instr :=
  if opc = 0x20#8 then some (.encBlk f)
  else if opc = 0x30#8 then some (.decBlk f)
  else none

/-- Decode a command word (R61 to R63). -/
def decode (w : Word) : Except Reject Instr :=
  if rsvField w ≠ 0#23 then .error .reservedBits
  else
    match formatF (opcField w) (flagField w) with
    | some i => .ok i
    | none =>
      match formatN (opcField w) with
      | some i => if flagField w then .error .flagOnFormatN else .ok i
      | none => .error .unknownOpcode

/-- The opcode of a command (R62). -/
def opcodeOf : Instr → BitVec 8
  | .crcUpd => 0x10#8
  | .crcComb => 0x11#8
  | .crcZeros => 0x12#8
  | .crcUnzero => 0x13#8
  | .crcMul => 0x14#8
  | .crcPow2 => 0x15#8
  | .crcPow256 => 0x16#8
  | .encBlk _ => 0x20#8
  | .encMaxlen => 0x21#8
  | .decBlk _ => 0x30#8
  | .decInc => 0x31#8
  | .frmSingle => 0x40#8
  | .frmMulti => 0x41#8

/-- The flag bit of a command: zero in format N (R61). -/
def flagOf : Instr → Bool
  | .encBlk isEnd => isEnd
  | .decBlk isRaw => isRaw
  | .crcUpd | .crcComb | .crcZeros | .crcUnzero | .crcMul | .crcPow2 | .crcPow256 | .encMaxlen | .decInc | .frmSingle
  | .frmMulti => false

/-- Encode a command: reserved bits zero, then the flag, then the opcode (R61). -/
def encode (i : Instr) : Word := 0#23 ++ BitVec.ofBool (flagOf i) ++ opcodeOf i

/-- What this decoder reads from an instruction whose bits, numbered as spec/opcode_table.json numbers them, are `w`:
bit 0 is bit 0 of the command word; the bits above `nbits` are zero. -/
def decodeTableWord (nbits w : Nat) : Option Instr :=
  if nbits ≤ 32 ∧ w < 2 ^ nbits then (decode (BitVec.ofNat 32 w)).toOption else none

end Sys2Proof
end

