-- ==== Sys2Proof/Machine/Flags.lean ====
section
/-! DEFINITION. The flags of the block (R34): the fields of `STATUS` (R11, R200), the field `S` of `DSTATE` (R20) and the
field `E` of `DEND` (R21), and the words that hold them. There are no carry, zero, sign or overflow flags. -/

namespace Sys2Proof.Machine

/-- The number of a fault code (R200). -/
def codeNumber : FaultCode → BitVec 8
  | .eArg => 1
  | .eCmd => 2
  | .eRange => 3
  | .eState => 4
  | .eOvf => 5

/-- `STATUS` with the given fields: `CODE` in bits 7..0, `STICKY` in bit 8, zeros above (R11). -/
def statusWord (sticky : Bool) (code : BitVec 8) : Word := 0#23 ++ BitVec.ofBool sticky ++ code

/-- `STATUS.CODE`, bits 7..0 (R11). -/
def statusCode (w : Word) : BitVec 8 := w.extractLsb' 0 8

/-- `STATUS.STICKY`, bit 8 (R11). -/
def statusSticky (w : Word) : Bool := w.getLsbD 8

/-- The value of `S` that names a decoder state (R20). -/
def decStateBits : DecState → BitVec 3
  | .crlf => 0
  | .eq => 1
  | .cr => 2
  | .none => 3
  | .crlfdt => 4
  | .crlfdtcr => 5
  | .crlfeq => 6

/-- The decoder state a value of `S` names; 7 names none (R20). -/
def decStateOfBits (s : BitVec 3) : Option DecState :=
  if s = 0 then some .crlf
  else if s = 1 then some .eq
  else if s = 2 then some .cr
  else if s = 3 then some .none
  else if s = 4 then some .crlfdt
  else if s = 5 then some .crlfdtcr
  else if s = 6 then some .crlfeq
  else Option.none

/-- `DSTATE` with field `S`, bits 2..0; the bits above read as zero (R20). -/
def dstateWord (s : BitVec 3) : Word := 0#29 ++ s

/-- Field `S` of `DSTATE` (R20). -/
def dstateField (w : Word) : BitVec 3 := w.extractLsb' 0 3

/-- The value of `E` that names an end marker (R21). -/
def endMarkerBits : EndMarker → BitVec 2
  | .none => 0
  | .control => 1
  | .article => 2

/-- `DEND` with field `E`, bits 1..0; the bits above read as zero (R21). -/
def dendWord (e : EndMarker) : Word := 0#30 ++ endMarkerBits e

end Sys2Proof.Machine
end

