-- ==== Sys2Proof/Machine/Ops.lean ====
section
/-! DEFINITION. The named operations every command and host action is made of: buffer bytes (20_memory.md), registers as
the host port reads and writes them (R32), the fault entry (R203), completion, and the frame of a command (R66). -/

namespace Sys2Proof.Machine

open Sys2Proof.Config (Buf)

/-- The outcome of a command or of a host action. -/
abbrev Result := Host.Outcome State Fault Refusal

/-! Buffers -/

/-- `MemRead(BUF, i, 1)` (R41): the byte last written at index `i`, or no value (R48). -/
def readByte : Memory → Nat → Option Byte
  | [], _ => unlistedByte
  | (j, v) :: rest, i => if j = i then some v else readByte rest i

/-- `BUF[i] <- v` (R42 `BufWrite`): the byte at `i` becomes written with value `v`; the canonical form is kept. -/
def writeByte : Memory → Nat → Byte → Memory
  | [], i, v => [(i, v)]
  | (j, w) :: rest, i, v =>
    if i < j then (i, v) :: (j, w) :: rest
    else if i = j then (i, v) :: rest
    else (j, w) :: writeByte rest i v

/-- The buffer whose only written bytes are `out`, from index `i` upward. -/
def bytesFrom : Nat → List Byte → Memory
  | _, [] => []
  | i, v :: rest => (i, v) :: bytesFrom (i + 1) rest

/-- The written bytes of a buffer from index `i` upward, `n` at most, up to the first that holds no value. In a canonical
buffer the bytes from `i` upward are read in one pass (R45). -/
def runFrom : Nat → Nat → Memory → List Byte
  | _, 0, _ => []
  | _, _ + 1, [] => []
  | i, n + 1, (j, v) :: rest => if j = i then v :: runFrom (i + 1) n rest else []

/-- `BUF[0 : n]` (R41) up to the first byte that holds no value. -/
def writtenPrefix (m : Memory) (n : Nat) : List Byte := runFrom 0 n m

/-- `BUF[0 : n]` (R41): its `n` bytes, or no value when one of them holds none (R48). -/
def readBytes (m : Memory) (n : Nat) : Option (List Byte) :=
  if (writtenPrefix m n).length = n then some (writtenPrefix m n) else none

/-- The buffer of a name (R31). -/
def buffer (s : State) : Buf → Memory
  | .ibuf => s.ibuf
  | .obuf => s.obuf
  | .nbuf => s.nbuf

/-! The end of a command -/

/-- `raise Fault(c)`, the one fault entry (R203): `STATUS.CODE <- c; STATUS.STICKY <- 1`, and nothing else. There is no
vector, no saved state and no mode, and so no return (R206): the next action follows as after any command. -/
def raise (c : FaultCode) (s : State) : State := { s with status := statusWord true (codeNumber c) }

/-- `STATUS.CODE <- 0` at the end of a command that completes (R66); `STICKY` keeps its value (R11). -/
def complete (s : State) : State := { s with status := statusWord (statusSticky s.status) 0 }

/-- `require p else Fault(c)` (00_scope.md §5.4): go on with `k`, or take the fault entry. -/
def require (p : Prop) [Decidable p] (c : FaultCode) (s : State) (k : Result) : Result :=
  if p then k else .next (raise c s)

/-- Go on with the bytes a command has read of buffer `b`; refuse when one of them holds no value (R48). -/
def withBytes (b : Buf) (bytes : Option (List Byte)) (k : List Byte → Result) : Result :=
  match bytes with
  | some d => k d
  | none => .refused (.unwrittenByte b)

/-- `OBUF[0 : len(out)] <- out; OUT_LEN <- len(out)`. From then on the bytes of `OBUF` from `OUT_LEN` up hold no value
(R49), whatever they held before. -/
def putOutput (out : List Byte) (s : State) : State :=
  { s with obuf := bytesFrom 0 out, outLen := BitVec.ofNat 64 out.length }

/-- How a command with output ends: `E_OVF` when the output does not fit (R41, D30), else `s'` (the command's register
writes) with the output delivered, completed. -/
def deliver (s : State) (out : List Byte) (s' : State) : Result :=
  require (out.length ≤ s.cfg.obufSize) .eOvf s (.next (complete (putOutput out s')))

/-! Registers at the host port -/

/-- `RegRead` (R32): the register's value, zero-extended to the port. -/
def readReg (s : State) : Reg → Len
  | .status => s.status.setWidth 64
  | .a => s.a.setWidth 64
  | .b => s.b.setWidth 64
  | .n => s.n
  | .r => s.r.setWidth 64
  | .inLen => s.inLen
  | .outLen => s.outLen
  | .line => s.line
  | .col => s.col
  | .dstate => s.dstate.setWidth 64
  | .dend => s.dend.setWidth 64
  | .consumed => s.consumed
  | .nameLen => s.nameLen
  | .psize => s.psize
  | .part => s.part
  | .apart => s.apart
  | .atotal => s.atotal
  | .fcrc => s.fcrc.setWidth 64
  | .pcrc => s.pcrc.setWidth 64
  | .maxlen => s.maxlen

/-- `RegWrite` (R32): a read/write register takes the value (a 32-bit one its low 32 bits, assumption 4); `DSTATE` keeps
only field `S` (R20); `STATUS` acts on bit 8 alone, write-1-to-clear of `STICKY` (R11); a read-only register ignores it. -/
def writeReg (s : State) (v : Len) : Reg → State
  | .status => if v.getLsbD 8 then { s with status := statusWord false (statusCode s.status) } else s
  | .a => { s with a := v.setWidth 32 }
  | .b => { s with b := v.setWidth 32 }
  | .n => { s with n := v }
  | .inLen => { s with inLen := v }
  | .line => { s with line := v }
  | .col => { s with col := v }
  | .dstate => { s with dstate := dstateWord (v.extractLsb' 0 3) }
  | .nameLen => { s with nameLen := v }
  | .psize => { s with psize := v }
  | .part => { s with part := v }
  | .r | .outLen | .dend | .consumed | .apart | .atotal | .fcrc | .pcrc | .maxlen => s

end Sys2Proof.Machine
end

