-- ==== Sys2Proof/Machine/Operands.lean ====
section
/-! DEFINITION. The operand forms: what commands read from registers and buffers (30_encoding.md R69), and the register
numbers of the host port (10_state.md §1). No operand but the flag is in the command word. -/

namespace Sys2Proof.Machine

/-- The register of a number (10_state.md §1, R46); 20 and above are reserved (R32). -/
def regOfNumber : Nat → Option Reg
  | 0 => some .status
  | 1 => some .a
  | 2 => some .b
  | 3 => some .n
  | 4 => some .r
  | 5 => some .inLen
  | 6 => some .outLen
  | 7 => some .line
  | 8 => some .col
  | 9 => some .dstate
  | 10 => some .dend
  | 11 => some .consumed
  | 12 => some .nameLen
  | 13 => some .psize
  | 14 => some .part
  | 15 => some .apart
  | 16 => some .atotal
  | 17 => some .fcrc
  | 18 => some .pcrc
  | 19 => some .maxlen
  | _ => none

/-- `data`: the chunk `IBUF[0 : IN_LEN]` (R16). -/
def chunk (s : State) : Option (List Byte) := readBytes s.ibuf s.inLen.toNat

/-- The written bytes at the front of the chunk, for the one command that may stop before the chunk's end (R147). -/
def chunkFront (s : State) : List Byte := writtenPrefix s.ibuf s.inLen.toNat

/-- `filename`: `NBUF[0 : NAME_LEN]` (R23). -/
def filename (s : State) : Option (List Byte) := readBytes s.nbuf s.nameLen.toNat

/-- `inState`: the decoder state in `DSTATE.S`, none for 7 (R20). -/
def inState (s : State) : Option DecState := decStateOfBits (dstateField s.dstate)

/-- `signed64(PSIZE)` (00_scope.md §5.1, R24). -/
def signedPsize (s : State) : Int := s.psize.toInt

end Sys2Proof.Machine
end

