-- ==== Sys2Proof/Machine/Crc.lean ====
section
/-! DEFINITION. The CRC unit (40_crc.md): the functions of Part 1 and the seven commands of Part 2. -/

namespace Sys2Proof.Machine

/-! The functions -/

/-- `POLY` (R3, R6): the generator in reflected form. -/
def poly : Word := 0xEDB88320#32

/-- The word of the polynomial 1 (R81): the multiplicative identity. -/
def polyOne : Word := 0x80000000#32

/-- The word of the polynomial x (R81). -/
def polyX : Word := 0x40000000#32

/-- Multiplication by x modulo G (R82). -/
def xtime (v : Word) : Word := (v >>> 1) ^^^ (if v.getLsbD 0 then poly else 0#32)

/-- Division by x modulo G, the inverse of `xtime` (R82). -/
def xinv (v : Word) : Word := if v.getLsbD 31 then ((v ^^^ poly) <<< 1) ||| 1#32 else v <<< 1

/-- `xtime` applied `k` times. -/
def xtimes : Nat → Word → Word
  | 0, v => v
  | k + 1, v => xtimes k (xtime v)

/-- One byte of the CRC loop (R80): the byte enters the low eight bits, then eight steps of `xtime`. -/
def crcByte (c : Word) (b : Byte) : Word := xtimes 8 (c ^^^ b.setWidth 32)

/-- The working register of R80 after the bytes of `data`, from the starting value `c` (`F_data(c)` of R89). -/
def crcRegister (data : List Byte) (c : Word) : Word := data.foldl crcByte c

/-- `crc(data, init)` (R80; G1, D38). -/
def crc (data : List Byte) (init : Word) : Word := crcRegister data (init ^^^ 0xFFFFFFFF#32) ^^^ 0xFFFFFFFF#32

/-- The loop of R83 with `k` coefficients of `b` still to take: the next is bit `k - 1`, the coefficient of x^(32 - k). -/
def mulLoop : Nat → Word → Word → Word → Word
  | 0, _, _, acc => acc
  | k + 1, a, b, acc => mulLoop k (xtime a) b (if b.getLsbD k then acc ^^^ a else acc)

/-- `mul(a, b)`, multiplication modulo G (R83). -/
def mul (a b : Word) : Word := mulLoop 32 a b 0

/-- The exponent after which the powers of x repeat (R84): 2^32 - 1. -/
def xOrder : Nat := 2 ^ 32 - 1

/-- Square and multiply over the low `k` bits of `n`: `q` is the power of x the lowest bit stands for. -/
def powLoop : Nat → Nat → Word → Word
  | 0, _, _ => polyOne
  | k + 1, n, q => if n % 2 = 1 then mul q (powLoop k (n / 2) (mul q q)) else powLoop k (n / 2) (mul q q)

/-- `pow2(n)` (R84): x^n modulo G, through the reduction of the exponent, never by looping `n` times (R92). -/
def pow2 (n : Nat) : Word := powLoop 32 (n % xOrder) polyX

/-- `pow256(n)` (R84): the multiplier for `n` bytes; `8 * n` is computed in ℕ and does not wrap (R7). -/
def pow256 (n : Nat) : Word := pow2 (8 * n)

/-- `not32` (00_scope.md §5.1). -/
def not32 (v : Word) : Word := v ^^^ 0xFFFFFFFF#32

/-- `zeros(c, n)` in the closed form of R89: the CRC after appending `n` zero bytes (R85). -/
def zeros (c : Word) (n : Nat) : Word := not32 (mul (not32 c) (pow256 n))

/-- The exponent that undoes `8 * n` steps of `xtime` (R89). -/
def unzeroExponent (n : Nat) : Nat := (xOrder - (8 * n) % xOrder) % xOrder

/-- `unzero(c, n)` in the closed form of R89: the CRC before `n` zero bytes were appended (R86). -/
def unzero (c : Word) (n : Nat) : Word := not32 (mul (not32 c) (pow2 (unzeroExponent n)))

/-- `combine(c1, c2, n)` (R87). -/
def combine (c1 c2 : Word) (n : Nat) : Word := mul c1 (pow256 n) ^^^ c2

/-! The commands -/

/-- How a CRC command ends (R97): it writes `R` and `STATUS` and nothing else. -/
def putR (v : Word) (s : State) : Result := .next (complete { s with r := v })

/-- `CRC.UPD` (R90). -/
def execCrcUpd (s : State) : Result :=
  require (s.inLen.toNat ≤ s.cfg.ibufSize) .eRange s <|
  withBytes .ibuf (chunk s) fun data => putR (crc data s.a) s

/-- `CRC.COMB` (R91). -/
def execCrcComb (s : State) : Result := putR (combine s.a s.b s.n.toNat) s

/-- `CRC.ZEROS` (R92). -/
def execCrcZeros (s : State) : Result := putR (zeros s.a s.n.toNat) s

/-- `CRC.UNZERO` (R93). -/
def execCrcUnzero (s : State) : Result := putR (unzero s.a s.n.toNat) s

/-- `CRC.MUL` (R94). -/
def execCrcMul (s : State) : Result := putR (mul s.a s.b) s

/-- `CRC.POW2` (R95). -/
def execCrcPow2 (s : State) : Result := putR (pow2 s.n.toNat) s

/-- `CRC.POW256` (R96). -/
def execCrcPow256 (s : State) : Result := putR (pow256 s.n.toNat) s

end Sys2Proof.Machine
end

