-- ==== Sys2Proof/Machine/Decoder.lean ====
section
/-! DEFINITION. The decoder unit (42_decoder.md): the transition function of Part 1, the decode functions of Part 2 and the
commands `DEC.BLK`, `DEC.INC`. Where R132 to R139 choose a cell the source leaves open (93 U1 to U6), this is the spec's
value (assumption 5). -/

namespace Sys2Proof.Machine

/-! The transition function -/

/-- The modes a command can run in (R131); the fourth combination is reached by no command (U15). -/
inductive DecMode where
  | blk      -- `DEC.BLK` with `RAW` = 0
  | blkRaw   -- `DEC.BLK` with `RAW` = 1
  | inc      -- `DEC.INC`
deriving DecidableEq, Repr

/-- Is dot-unstuffing at line starts on? (R131) -/
def unstuffs : DecMode → Bool
  | .blk => true
  | .blkRaw => false
  | .inc => true

/-- Are terminators recognised? (R131) -/
def detects : DecMode → Bool
  | .blk => false
  | .blkRaw => false
  | .inc => true

/-- One cell of the table of R140: the next state, the output byte if any, the end marker. -/
structure DecCell where
  next   : DecState
  out    : Option Byte
  marker : EndMarker
deriving DecidableEq, Repr

/-- A byte met in mid-line with nothing pending (R132). -/
def plainCell (c : Byte) : DecCell :=
  if c = 0x3D#8 then ⟨.eq, none, .none⟩
  else if c = 0x0D#8 then ⟨.cr, none, .none⟩
  else if c = 0x0A#8 then ⟨.none, none, .none⟩
  else ⟨.none, some (c - 42#8), .none⟩

/-- A byte that follows the escape byte: always data (R130, R134). -/
def escapedCell (c : Byte) : DecCell := ⟨.none, some (c - 106#8), .none⟩

/-- `step(mode, s, c)` (R140), one rule per state: R133 to R139. -/
def decStep (mode : DecMode) (s : DecState) (c : Byte) : DecCell :=
  match s with
  | .none => plainCell c
  | .eq => escapedCell c
  | .cr => if c = 0x0A#8 then ⟨.crlf, none, .none⟩ else plainCell c
  | .crlf =>
    if c = 0x2E#8 ∧ unstuffs mode then ⟨.crlfdt, none, .none⟩
    else if c = 0x3D#8 ∧ detects mode then ⟨.crlfeq, none, .none⟩
    else plainCell c
  | .crlfdt => if c = 0x0D#8 then ⟨.crlfdtcr, none, .none⟩ else plainCell c
  | .crlfdtcr =>
    if c = 0x0A#8 then ⟨.crlf, none, if detects mode then .control else .none⟩ else plainCell c
  | .crlfeq => if c = 0x79#8 ∧ detects mode then ⟨.none, none, .article⟩ else escapedCell c

/-! The decode functions -/

/-- The fold of R141 in one mode: the output bytes and the state after the whole of `data`. -/
def decodeRun (mode : DecMode) : List Byte → DecState → List Byte × DecState
  | [], s => ([], s)
  | c :: rest, s =>
    ((decStep mode s c).out.toList ++ (decodeRun mode rest (decStep mode s c).next).1,
      (decodeRun mode rest (decStep mode s c).next).2)

/-- The mode of the bounded function (R141): `isRaw` turns unstuffing off. -/
def blockMode (isRaw : Bool) : DecMode := if isRaw then .blkRaw else .blk

/-- `decode(data, isRaw, s0)` (R141). -/
def decodeBlock (data : List Byte) (isRaw : Bool) (s0 : DecState) : List Byte × DecState :=
  decodeRun (blockMode isRaw) data s0

/-- What `decodeIncremental` returns (R142). -/
structure IncResult where
  out      : List Byte
  marker   : EndMarker
  state    : DecState
  consumed : Nat
deriving DecidableEq, Repr

/-- `decodeIncremental(data, s0)` (R142): stop after the byte that completes a terminator, else take all of `data`. -/
def decodeIncremental : List Byte → DecState → IncResult
  | [], s => ⟨[], .none, s, 0⟩
  | c :: rest, s =>
    if (decStep .inc s c).marker = .none then
      ⟨(decStep .inc s c).out.toList ++ (decodeIncremental rest (decStep .inc s c).next).out,
        (decodeIncremental rest (decStep .inc s c).next).marker,
        (decodeIncremental rest (decStep .inc s c).next).state,
        (decodeIncremental rest (decStep .inc s c).next).consumed + 1⟩
    else ⟨(decStep .inc s c).out.toList, (decStep .inc s c).marker, (decStep .inc s c).next, 1⟩

/-! The commands -/

/-- Go on with `DSTATE.S`, or fault `E_STATE` when it is 7 (D21). -/
def withInState (s : State) (k : DecState → Result) : Result :=
  match inState s with
  | some s0 => k s0
  | none => .next (raise .eState s)

/-- The register writes of a decode command (R146, R147). -/
def putDecode (next : DecState) (marker : EndMarker) (consumed : Len) (s : State) : State :=
  { s with dstate := dstateWord (decStateBits next), dend := dendWord marker, consumed := consumed }

/-- `DEC.BLK` (R146). -/
def execDecBlk (isRaw : Bool) (s : State) : Result :=
  require (s.inLen.toNat ≤ s.cfg.ibufSize) .eRange s <|
  withInState s fun s0 =>
  withBytes .ibuf (chunk s) fun data =>
  deliver s (decodeBlock data isRaw s0).1 (putDecode (decodeBlock data isRaw s0).2 .none s.inLen s)

/-- The result of `DEC.INC` on the chunk (R142, R147): no value when the decoder runs into a byte that holds none before
it meets a terminator; the bytes after a terminator are not examined (D22, assumption 6). -/
def incResult (s : State) (s0 : DecState) : Option IncResult :=
  if (decodeIncremental (chunkFront s) s0).marker ≠ .none ∨ (chunkFront s).length = s.inLen.toNat then
    some (decodeIncremental (chunkFront s) s0)
  else none

/-- `DEC.INC` (R147). -/
def execDecInc (s : State) : Result :=
  require (s.inLen.toNat ≤ s.cfg.ibufSize) .eRange s <|
  withInState s fun s0 =>
  match incResult s s0 with
  | some q => deliver s q.out (putDecode q.state q.marker (BitVec.ofNat 64 q.consumed) s)
  | none => .refused (.unwrittenByte .ibuf)

end Sys2Proof.Machine
end

