-- ==== Sys2Proof/Machine/Encoder.lean ====
section
/-! DEFINITION. The encoder unit (41_encoder.md): the functions of Part 1 and the commands `ENC.BLK`, `ENC.MAXLEN`. -/

namespace Sys2Proof.Machine

open Sys2Proof.Config (MaxLenRule customMaxLen)

/-! The functions -/

/-- CR LF (00_scope.md §5.2). -/
def crlf : List Byte := [0x0D#8, 0x0A#8]

/-- The escape byte `=` (R6 `ESC`). -/
def escByte : Byte := 0x3D#8

/-- The escape predicate of R111: a critical value, or `.` as the first character of a line. -/
def mustEscape (e : Byte) (col : Nat) : Bool :=
  e = 0x00#8 || e = 0x0A#8 || e = 0x0D#8 || e = 0x3D#8 || (e = 0x2E#8 && col = 0)

/-- The output characters of the input byte `b` at column `col` (R110): one, or an escape pair, which is never split. -/
def encodeChars (col : Nat) (b : Byte) : List Byte :=
  if mustEscape (b + 42#8) col then [escByte, b + 42#8 + 64#8] else [b + 42#8]

/-- The output of one input byte with its line break, and the column after it (R110, R112). -/
def encodeByte (lineSize col : Nat) (b : Byte) : List Byte × Nat :=
  if lineSize ≤ col + (encodeChars col b).length then (encodeChars col b ++ crlf, 0)
  else (encodeChars col b, col + (encodeChars col b).length)

/-- `encode(data, L, col0, isEnd)` (R110); `isEnd` has no effect (R114). -/
def encodeBytes : List Byte → Nat → Nat → Bool → List Byte × Nat
  | [], _, col, _ => ([], col)
  | b :: rest, lineSize, col, isEnd =>
    ((encodeByte lineSize col b).1 ++ (encodeBytes rest lineSize (encodeByte lineSize col b).2 isEnd).1,
      (encodeBytes rest lineSize (encodeByte lineSize col b).2 isEnd).2)

/-- The default size formula (R122): `2·n + 2·ceil(2·n / L)`. -/
def defaultMaxLen (n lineSize : Nat) : Nat := 2 * n + 2 * ((2 * n + lineSize - 1) / lineSize)

/-- The length of the longest output a chunk of `n` bytes can have at line size `L ≥ 1`: every byte escaped, the first of
them at the last column, and after it a line break every `ceil(L / 2)` bytes. It is the least value R121 allows
(DEDUCED from R110, assumption 2). -/
def worstLen (n lineSize : Nat) : Nat :=
  if n = 0 then 0 else 2 * n + 2 * (1 + (n - 1) / ((lineSize + 1) / 2))

/-- `encMaxLen(n, L)` (R120): the default of R122, or the free formula raised to the least value R121 allows, which is
any formula with the property of R121 and no other. -/
def encMaxLen (rule : MaxLenRule) (n lineSize : Nat) : Nat :=
  match rule with
  | .dflt => defaultMaxLen n lineSize
  | .custom => max (customMaxLen n lineSize) (worstLen n lineSize)

/-! The commands -/

/-- `ENC.BLK` (R117). -/
def execEncBlk (isEnd : Bool) (s : State) : Result :=
  require (s.inLen.toNat ≤ s.cfg.ibufSize) .eRange s <|
  require (1 ≤ s.line.toNat) .eRange s <|
  require (s.col.toNat < s.line.toNat) .eRange s <|
  withBytes .ibuf (chunk s) fun data =>
  deliver s (encodeBytes data s.line.toNat s.col.toNat isEnd).1
    { s with col := BitVec.ofNat 64 (encodeBytes data s.line.toNat s.col.toNat isEnd).2 }

/-- `ENC.MAXLEN` (R123). -/
def execEncMaxlen (s : State) : Result :=
  require (1 ≤ s.line.toNat) .eRange s <|
  require (encMaxLen s.cfg.maxLen s.n.toNat s.line.toNat < 2 ^ 64) .eRange s <|
  .next (complete { s with maxlen := BitVec.ofNat 64 (encMaxLen s.cfg.maxLen s.n.toNat s.line.toNat) })

end Sys2Proof.Machine
end

