-- ==== Sys2Proof/Machine/Framer.lean ====
section
/-! DEFINITION. The framer unit (43_framer.md): the functions of Part 1 and the commands `FRM.SINGLE`, `FRM.MULTI`. -/

namespace Sys2Proof.Machine

/-! Text -/

/-- The ASCII codes of a quoted text (00_scope.md §5.2). -/
def ascii (text : List Char) : List Byte := text.map fun ch => BitVec.ofNat 8 ch.toNat

/-- The digits of `n` before `acc`, `fuel` of them at most, most significant first. -/
def decDigits : Nat → Nat → List Byte → List Byte
  | 0, _, acc => acc
  | fuel + 1, n, acc =>
    if n < 10 then BitVec.ofNat 8 (0x30 + n) :: acc
    else decDigits fuel (n / 10) (BitVec.ofNat 8 (0x30 + n % 10) :: acc)

/-- `dec(n)` (00_scope.md §5.2, R176): decimal, no leading zero; `dec(0) = "0"`. A number below 2^k has at most k
decimal digits, so the fuel never runs out. -/
def dec (n : Nat) : List Byte := decDigits (n.log2 + 1) n []

/-- One hexadecimal digit, `a` to `f` in lower case (R177). -/
def hexDigit (d : BitVec 4) : Byte := BitVec.ofNat 8 (if d.toNat < 10 then 0x30 + d.toNat else 0x57 + d.toNat)

/-- `hex8(v)` (00_scope.md §5.2, R177): eight digits, bits 31..28 first. -/
def hex8 (v : Word) : List Byte :=
  [hexDigit (v.extractLsb' 28 4), hexDigit (v.extractLsb' 24 4), hexDigit (v.extractLsb' 20 4),
   hexDigit (v.extractLsb' 16 4), hexDigit (v.extractLsb' 12 4), hexDigit (v.extractLsb' 8 4),
   hexDigit (v.extractLsb' 4 4), hexDigit (v.extractLsb' 0 4)]

/-! The fields of the header and footer lines (R171) -/

def tBegin : List Byte := ascii ['=', 'y', 'b', 'e', 'g', 'i', 'n']
def tYpart : List Byte := ascii ['=', 'y', 'p', 'a', 'r', 't']
def tEnd : List Byte := ascii ['=', 'y', 'e', 'n', 'd']
def tSize : List Byte := ascii [' ', 's', 'i', 'z', 'e', '=']
def tLine : List Byte := ascii [' ', 'l', 'i', 'n', 'e', '=']
def tName : List Byte := ascii [' ', 'n', 'a', 'm', 'e', '=']
def tPart : List Byte := ascii [' ', 'p', 'a', 'r', 't', '=']
def tTotal : List Byte := ascii [' ', 't', 'o', 't', 'a', 'l', '=']
def tFrom : List Byte := ascii [' ', 'b', 'e', 'g', 'i', 'n', '=']
def tTo : List Byte := ascii [' ', 'e', 'n', 'd', '=']
def tCrc : List Byte := ascii [' ', 'c', 'r', 'c', '3', '2', '=']
def tPcrc : List Byte := ascii [' ', 'p', 'c', 'r', 'c', '3', '2', '=']

/-! Articles -/

/-- An article (R170). -/
structure Article where
  text       : List Byte
  partNumber : Nat
  totalParts : Nat
  crc32      : Word
  partCrc32  : Word
deriving DecidableEq, Repr

/-- `WS` (R6, D26). -/
def whiteSpace : List Byte := [0x09#8, 0x0A#8, 0x0B#8, 0x0C#8, 0x0D#8, 0x20#8]

/-- A blank name: empty, or nothing but white space (R172). -/
def blankName (name : List Byte) : Bool := name.all fun ch => whiteSpace.contains ch

/-- `valid(data, name)` (R172). -/
def validArgs (data name : List Byte) : Bool :=
  1 ≤ data.length && !blankName name && name.all fun ch => ch ≠ 0x0D#8 && ch ≠ 0x0A#8

/-- `term(p)` (R173): `p` with CR LF after it unless it ends so already. -/
def terminate (p : List Byte) : List Byte := if p.drop (p.length - 2) = crlf then p else p ++ crlf

/-- The payload of a byte range (R173): encoded as a fresh stream, CRLF-terminated. -/
def payload (d : List Byte) (lineSize : Nat) : List Byte := terminate (encodeBytes d lineSize 0 true).1

/-- The text of a single-part article (R174). -/
def singleText (data name : List Byte) (lineSize : Nat) : List Byte :=
  tBegin ++ tLine ++ dec lineSize ++ tSize ++ dec data.length ++ tName ++ name ++ crlf
    ++ payload data lineSize
    ++ tEnd ++ tSize ++ dec data.length ++ tCrc ++ hex8 (crc data 0) ++ crlf

/-- `singleArticle(data, name, L)` (R174). -/
def singleArticle (data name : List Byte) (lineSize : Nat) : Article :=
  { text := singleText data name lineSize, partNumber := 1, totalParts := 1, crc32 := crc data 0,
    partCrc32 := crc data 0 }

/-- `ceil(len / P)` (R175), for `P ≥ 1`. -/
def partCount (len partSize : Nat) : Nat := (len + partSize - 1) / partSize

/-- Where part `k` starts, 0-indexed and inclusive (R175). -/
def partStart (partSize k : Nat) : Nat := (k - 1) * partSize

/-- Where part `k` ends, 0-indexed and exclusive (R175). -/
def partEnd (len partSize k : Nat) : Nat := min (k * partSize) len

/-- `data[start : end]`, the bytes of part `k` (R175). -/
def partBytes (data : List Byte) (partSize k : Nat) : List Byte :=
  (data.drop (partStart partSize k)).take (partEnd data.length partSize k - partStart partSize k)

/-- The text of part `k` of a multi-part article (R175). -/
def partText (data name : List Byte) (partSize lineSize k : Nat) : List Byte :=
  tBegin ++ tPart ++ dec k ++ tTotal ++ dec (partCount data.length partSize) ++ tLine ++ dec lineSize
    ++ tSize ++ dec data.length ++ tName ++ name ++ crlf
    ++ tYpart ++ tFrom ++ dec (partStart partSize k + 1) ++ tTo ++ dec (partEnd data.length partSize k) ++ crlf
    ++ payload (partBytes data partSize k) lineSize
    ++ tEnd ++ tSize ++ dec (partEnd data.length partSize k - partStart partSize k) ++ tPart ++ dec k
    ++ tPcrc ++ hex8 (crc (partBytes data partSize k) 0) ++ tCrc ++ hex8 (crc data 0) ++ crlf

/-- `article_k` of R175. -/
def partArticle (data name : List Byte) (partSize lineSize k : Nat) : Article :=
  { text := partText data name partSize lineSize k, partNumber := k, totalParts := partCount data.length partSize,
    crc32 := crc data 0, partCrc32 := crc (partBytes data partSize k) 0 }

/-- `multiArticles(data, name, P, L)` (R175). -/
def multiArticles (data name : List Byte) (partSize lineSize : Nat) : List Article :=
  if data.length ≤ partSize then [singleArticle data name lineSize]
  else (List.range (partCount data.length partSize)).map fun j => partArticle data name partSize lineSize (j + 1)

/-! The commands -/

/-- The article register writes of a framer command (R178, R179). -/
def putArticle (art : Article) (s : State) : State :=
  { s with apart := BitVec.ofNat 64 art.partNumber, atotal := BitVec.ofNat 64 art.totalParts, fcrc := art.crc32,
           pcrc := art.partCrc32 }

/-- How a framer command ends (R181). -/
def deliverArticle (s : State) (art : Article) : Result := deliver s art.text (putArticle art s)

/-- The length checks and operand reads the two framer commands share (R178, R179). -/
def withFramerOperands (s : State) (k : List Byte → List Byte → Result) : Result :=
  require (s.inLen.toNat ≤ s.cfg.ibufSize) .eRange s <|
  require (s.nameLen.toNat ≤ s.cfg.nbufSize) .eRange s <|
  require (1 ≤ s.line.toNat) .eRange s <|
  withBytes .ibuf (chunk s) fun data =>
  withBytes .nbuf (filename s) fun name => k data name

/-- `FRM.SINGLE` (R178). -/
def execFrmSingle (s : State) : Result :=
  withFramerOperands s fun data name =>
  require (validArgs data name = true) .eArg s <|
  deliverArticle s (singleArticle data name s.line.toNat)

/-- The article `FRM.MULTI` produces: position `PART`, 1-indexed, of the list (R25, R179); none outside the list. -/
def selectedArticle (s : State) (data name : List Byte) : Option Article :=
  if 1 ≤ s.part.toNat then (multiArticles data name s.psize.toNat s.line.toNat)[s.part.toNat - 1]? else none

/-- `FRM.MULTI` (R179). `signed64(PSIZE) > 0` comes before the list is formed, so the divisor is never zero (R7). -/
def execFrmMulti (s : State) : Result :=
  withFramerOperands s fun data name =>
  require (validArgs data name = true ∧ 0 < signedPsize s) .eArg s <|
  match selectedArticle s data name with
  | some art => deliverArticle s art
  | none => .next (raise .eRange s)

end Sys2Proof.Machine
end

