-- ==== Sys2Proof/Machine/Dispatch.lean ====
section
/-! DEFINITION. One arm per command, each one direct call of its meaning (30_encoding.md R62). -/

namespace Sys2Proof.Machine

def exec (i : Instr) (s : State) : Host.Outcome State Fault Refusal :=
  match i with
  | .crcUpd => Sys2Proof.Machine.execCrcUpd s
  | .crcComb => Sys2Proof.Machine.execCrcComb s
  | .crcZeros => Sys2Proof.Machine.execCrcZeros s
  | .crcUnzero => Sys2Proof.Machine.execCrcUnzero s
  | .crcMul => Sys2Proof.Machine.execCrcMul s
  | .crcPow2 => Sys2Proof.Machine.execCrcPow2 s
  | .crcPow256 => Sys2Proof.Machine.execCrcPow256 s
  | .encBlk isEnd => Sys2Proof.Machine.execEncBlk isEnd s
  | .encMaxlen => Sys2Proof.Machine.execEncMaxlen s
  | .decBlk isRaw => Sys2Proof.Machine.execDecBlk isRaw s
  | .decInc => Sys2Proof.Machine.execDecInc s
  | .frmSingle => Sys2Proof.Machine.execFrmSingle s
  | .frmMulti => Sys2Proof.Machine.execFrmMulti s

end Sys2Proof.Machine
end

