-- ==== Sys2Proof/Machine/HostPort.lean ====
section
/-! DEFINITION. The five actions of the host port (20_memory.md R42), each one indivisible step (R50), and the external reset
(70_reset_and_hazards.md R230). -/

namespace Sys2Proof.Machine

open Sys2Proof.Config (Buf)

/-- `RegWrite(n, v)` (R32). -/
def hostRegWrite (n : Nat) (v : Len) (s : State) : Result :=
  match regOfNumber n with
  | some reg => .next (writeReg s v reg)
  | none => .refused (.noSuchRegister n)

/-- `RegRead(n)` (R32): the value goes to the host; no side effect (R45). -/
def hostRegRead (n : Nat) (s : State) : Result :=
  match regOfNumber n with
  | some reg => .next { s with replies := .reg (readReg s reg) :: s.replies }
  | none => .refused (.noSuchRegister n)

/-- `BufWrite(BUF, i, v)` (R42): for `IBUF` and `NBUF` inside the capacity. -/
def hostBufWrite (b : Buf) (i : Nat) (v : Byte) (s : State) : Result :=
  match b with
  | .ibuf =>
    if i < s.cfg.ibufSize then .next { s with ibuf := writeByte s.ibuf i v } else .refused (.noSuchIndex .ibuf i)
  | .nbuf =>
    if i < s.cfg.nbufSize then .next { s with nbuf := writeByte s.nbuf i v } else .refused (.noSuchIndex .nbuf i)
  | .obuf => .refused .obufWrittenByHost

/-- `BufRead(BUF, i)` (R42, R48): the value goes to the host; a byte that holds no value is refused. -/
def hostBufRead (b : Buf) (i : Nat) (s : State) : Result :=
  if i < s.cfg.size b then
    match readByte (buffer s b) i with
    | some v => .next { s with replies := .byte v :: s.replies }
    | none => .refused (.unwrittenByte b)
  else .refused (.noSuchIndex b i)

/-- `Issue(w)` (R66): an illegal word takes the fault entry with `E_CMD` (R63); a legal one runs its command. -/
def issue (w : Word) (s : State) : Result :=
  match decode w with
  | .error _ => .next (raise .eCmd s)
  | .ok i => exec i s

/-- The external reset (R230): every register at its reset value, no byte of any buffer written. The parameters are no
state (R36); what the host does next and what it has been told are the host's. -/
def hostReset (s : State) : State := { State.reset with cfg := s.cfg, script := s.script, replies := s.replies }

/-- One host action (R42) or reset (R230). -/
def perform (act : HostAction) (s : State) : Result :=
  match act with
  | .regWrite n v => hostRegWrite n v s
  | .regRead n => hostRegRead n s
  | .bufWrite b i v => hostBufWrite b i v s
  | .bufRead b i => hostBufRead b i s
  | .issue w => issue w s
  | .reset => .next (hostReset s)

/-- The host takes its next action: it is no longer to come. -/
def takeAction (rest : List HostAction) (s : State) : State := { s with script := rest }

/-- Present a command word as the host's very next action. -/
def presentWord (w : Word) (s : State) : State := { s with script := .issue w :: s.script }

/-- The command word whose bits are `w` in its low `nbits` and zero above (R60: all commands have 32 bits). -/
def tableWord (nbits w : Nat) : Word := BitVec.ofNat 32 (w % 2 ^ nbits)

end Sys2Proof.Machine
end

