-- ==== Sys2Proof/Machine/Step.lean ====
section
/-! DEFINITION. One step of the machine: the host's next action (20_memory.md R50). There is no program counter and nothing is
fetched (10_state.md R33): the next command is whatever the host presents next. -/

namespace Sys2Proof.Machine

/-- One step. When the host has nothing to do, the block keeps its state: nothing in it acts on its own (R33, R205;
assumption 3). -/
def step (s : State) : Host.Outcome State Fault Refusal :=
  match s.script with
  | [] => .next s
  | act :: rest => perform act (takeAction rest s)

/-- `s` with the command word whose low `nbits` bits are `w` as the host's next action: what stands in the place of a
fetch on this hardware (assumption 7). -/
def State.withFetchWord (s : State) (nbits w : Nat) : State := presentWord (tableWord nbits w) s

end Sys2Proof.Machine
end

