-- ==== Sys2Proof/Safety.lean ====
section
/-! DEFINITION. What counts as a good state and a good host, in the terms the claims use. -/

namespace Sys2Proof.Machine

open Sys2Proof.Config (Buf)

/-- A buffer is good at a capacity: canonical, and every written index below the capacity (R40). -/
abbrev Memory.within (m : Memory) (size : Nat) : Prop := m.wf ∧ ∀ c ∈ m, c.1 < size

/-- The three buffers are good, and `OBUF` holds exactly the current output: the written bytes of `OBUF` are those below
`OUT_LEN` (R49). -/
structure BuffersGood (s : State) : Prop where
  ibuf   : s.ibuf.within s.cfg.ibufSize
  nbuf   : s.nbuf.within s.cfg.nbufSize
  obuf   : s.obuf.within s.cfg.obufSize
  output : ∀ i, (readByte s.obuf i).isSome = true ↔ i < s.outLen.toNat

/-- The reserved bits read as zero and the enumerations hold no reserved value the block may not write (R11, R20, R21,
R200). `DSTATE.S` = 7 is not excluded: the host may write it. -/
structure FieldsGood (s : State) : Prop where
  statusReserved : s.status.extractLsb' 9 23 = 0
  statusCode     : (statusCode s.status).toNat ≤ 5
  dstateReserved : s.dstate.extractLsb' 3 29 = 0
  dendReserved   : s.dend.extractLsb' 2 30 = 0
  dendValue      : s.dend ≠ 3

/-- The bounds the result registers keep (R7, R22, R26, R27): `CONSUMED` and `ATOTAL` never exceed the input buffer, and a
part number is never above its total. -/
structure ResultsGood (s : State) : Prop where
  consumed : s.consumed.toNat ≤ s.cfg.ibufSize
  apart    : s.apart.toNat ≤ s.atotal.toNat
  atotal   : s.atotal.toNat ≤ s.cfg.ibufSize

/-- The invariant of the machine. -/
structure State.Good (s : State) : Prop where
  params  : s.cfg.wf
  buffers : BuffersGood s
  fields  : FieldsGood s
  results : ResultsGood s

/-- The chunk is in place (R48): its length fits `IBUF`, and its bytes are `data`. -/
abbrev ChunkIs (s : State) (data : List Byte) : Prop := s.inLen.toNat ≤ s.cfg.ibufSize ∧ chunk s = some data

/-- The filename is in place (R48). -/
abbrev NameIs (s : State) (name : List Byte) : Prop := s.nameLen.toNat ≤ s.cfg.nbufSize ∧ filename s = some name

/-! What a command leaves alone, and how it ends -/

/-- Every byte of buffer `b` reads as before. -/
abbrev SameBytes (s t : State) (b : Buf) : Prop := ∀ i, readByte (buffer t b) i = readByte (buffer s b) i

/-- Every register but those named reads as before. -/
abbrev SameRegsBut (changed : List Reg) (s t : State) : Prop := ∀ reg, reg ∉ changed → readReg t reg = readReg s reg

/-- The parameters and the host's side of the port are as before. -/
abbrev SamePort (s t : State) : Prop := t.cfg = s.cfg ∧ t.script = s.script ∧ t.replies = s.replies

/-- `STATUS` after a command that completes (R11, R66): `CODE` is 0, `STICKY` as before, the reserved bits zero. -/
abbrev Completed (s t : State) : Prop := t.status = statusWord (statusSticky s.status) 0

/-- The output of a command is `out` (R17, R49): `OUT_LEN` is its length, `OBUF[0 : OUT_LEN]` holds it, and every byte of
`OBUF` from `OUT_LEN` up holds no value. -/
abbrev OutputIs (t : State) (out : List Byte) : Prop :=
  t.outLen.toNat = out.length ∧ readBytes t.obuf t.outLen.toNat = some out ∧
    ∀ i, out.length ≤ i → readByte t.obuf i = none

/-- The seven commands of the CRC unit (R97). -/
def crcCommands : List Instr := [.crcUpd, .crcComb, .crcZeros, .crcUnzero, .crcMul, .crcPow2, .crcPow256]

/-- The codes a command can leave in `STATUS.CODE`: 0 and the codes of R201 and R202. -/
def codesOf : Instr → List (BitVec 8)
  | .crcUpd => [0, 3]
  | .crcComb | .crcZeros | .crcUnzero | .crcMul | .crcPow2 | .crcPow256 => [0]
  | .encBlk _ => [0, 3, 5]
  | .encMaxlen => [0, 3]
  | .decBlk _ | .decInc => [0, 3, 4, 5]
  | .frmSingle | .frmMulti => [0, 1, 3, 5]

end Sys2Proof.Machine
end

