-- ==== Sys2Proof/Certificates/Slice0/Obligations.lean ====
section
/-! DEFINITION. The statements about YCORE, one per numbered rule or group of rules of the spec. None is about a program. -/

open Sys2Proof Sys2Proof.Machine

/-! ## Reset, the host port, the step -/

/-- R231, R230: after reset `LINE` is 128, every other register 0, and no byte of any buffer holds a value; that is so of the
state `State.reset` and of what an external reset leaves of any state. That the reset keeps the parameters is the model's
deduction from R36, which says they are no state (assumption 12). -/
def Obligations.ResetLeavesTheSpecValues : Prop :=
  ((∀ reg, readReg State.reset reg = if reg = .line then 128 else 0) ∧
    ∀ b i, readByte (buffer State.reset b) i = none) ∧
  ∀ s, ∃ t, perform .reset s = .next t ∧ (∀ reg, readReg t reg = if reg = .line then 128 else 0) ∧
    (∀ b i, readByte (buffer t b) i = none) ∧ t.cfg = s.cfg

/-- R50 with the model's choice for a host that does nothing (assumption 3): a step is the host's next action, and with
none to come the state stays. -/
def Obligations.StepTakesTheNextHostAction : Prop :=
  (∀ s, s.script = [] → step s = .next s) ∧
    ∀ s act rest, s.script = act :: rest → step s = perform act { s with script := rest }

/-- R66: `Issue` of a legal word runs the command it selects. What the step adds around `exec` is that the action is no
longer to come. -/
def Obligations.StepRunsTheDecodedCommand : Prop :=
  ∀ s w rest i, s.script = .issue w :: rest → decode w = .ok i → i.wf = true →
    step s = exec i { s with script := rest }

/-- R63: every word that is not one of the fifteen faults `E_CMD` and changes nothing but `STATUS`. -/
def Obligations.IllegalWordFaultsAndChangesOnlyStatus : Prop :=
  ∀ s w, legalWord w = false → ∃ t, issue w s = .next t ∧ statusCode t.status = 2 ∧ statusSticky t.status = true ∧
    SameRegsBut [.status] s t ∧ (∀ b, SameBytes s t b) ∧ SamePort s t

/-- R46, R32, R45 and the table of 10_state.md section 1: the register numbers 0 to 19 are the whole map, in the table's order, and
no two name one register; a host read returns the register's value, zero-extended to the port, and changes nothing. Where
the value goes, `replies`, is the model's choice (assumption 3). -/
def Obligations.HostReadReturnsTheRegister : Prop :=
  ((List.range 20).map regOfNumber =
      [some .status, some .a, some .b, some .n, some .r, some .inLen, some .outLen, some .line, some .col,
        some .dstate, some .dend, some .consumed, some .nameLen, some .psize, some .part, some .apart, some .atotal,
        some .fcrc, some .pcrc, some .maxlen]) ∧
    (∀ n, (∃ reg, regOfNumber n = some reg) ↔ n < 20) ∧ (∀ reg, ∃ n, regOfNumber n = some reg) ∧
    (∀ m n reg, regOfNumber m = some reg → regOfNumber n = some reg → m = n) ∧
    (∀ s : State,
      (readReg s .status = s.status.setWidth 64 ∧ readReg s .a = s.a.setWidth 64 ∧ readReg s .b = s.b.setWidth 64 ∧
        readReg s .n = s.n ∧ readReg s .r = s.r.setWidth 64 ∧ readReg s .inLen = s.inLen ∧
        readReg s .outLen = s.outLen ∧ readReg s .line = s.line ∧ readReg s .col = s.col ∧
        readReg s .dstate = s.dstate.setWidth 64) ∧
      readReg s .dend = s.dend.setWidth 64 ∧ readReg s .consumed = s.consumed ∧ readReg s .nameLen = s.nameLen ∧
        readReg s .psize = s.psize ∧ readReg s .part = s.part ∧ readReg s .apart = s.apart ∧
        readReg s .atotal = s.atotal ∧ readReg s .fcrc = s.fcrc.setWidth 64 ∧
        readReg s .pcrc = s.pcrc.setWidth 64 ∧ readReg s .maxlen = s.maxlen) ∧
    ∀ s n reg, regOfNumber n = some reg → ∃ t, perform (.regRead n) s = .next t ∧
      t.replies = .reg (readReg s reg) :: s.replies ∧ SameRegsBut [] s t ∧ (∀ b, SameBytes s t b) ∧ t.cfg = s.cfg ∧
      t.script = s.script

/-- R32, R11, R20: what a host write leaves in each register; every other register and every byte is as before. That a
32-bit register takes the low bits of a wider value is the model's choice (assumption 4). -/
def Obligations.HostWriteActsOnOneRegister : Prop :=
  ∀ s n v reg, regOfNumber n = some reg → ∃ t, perform (.regWrite n v) s = .next t ∧
    SameRegsBut [reg] s t ∧ (∀ b, SameBytes s t b) ∧ SamePort s t ∧
    readReg t reg =
      match reg with
      | .status => if v.getLsbD 8 then (statusCode s.status).setWidth 64 else readReg s .status
      | .a | .b => v &&& 0xFFFFFFFF#64
      | .dstate => v &&& 7#64
      | .n | .inLen | .line | .col | .nameLen | .psize | .part => v
      | .r | .outLen | .dend | .consumed | .apart | .atotal | .fcrc | .pcrc | .maxlen => readReg s reg

/-- R41, R42: a host write makes one byte of `IBUF` or `NBUF` written, a read then returns it, and every other byte of
every buffer and every register is as before. -/
def Obligations.BufferWriteThenReadReturnsTheByte : Prop :=
  ∀ s b i v, b ≠ .obuf → i < s.cfg.size b → ∃ t u, perform (.bufWrite b i v) s = .next t ∧
    perform (.bufRead b i) t = .next u ∧ u.replies = .byte v :: s.replies ∧
    (∀ b' j, ¬(b' = b ∧ j = i) → readByte (buffer t b') j = readByte (buffer s b') j) ∧
    SameRegsBut [] s t ∧ SamePort s t ∧ SameRegsBut [] t u ∧ ∀ b', SameBytes t u b'

/-- R48, R49: a host read of a byte that holds no value is refused, and so is each of the six commands that read `IBUF`, and each
of the two that read `NBUF`, when it evaluates such a byte. The model's readings of "evaluates": `DEC.INC` evaluates no byte
behind a terminator (assumption 6), and a framer command evaluates both operands before it validates them, so it is refused
also where the name is blank or `PSIZE` is not positive (assumption 11). -/
def Obligations.UnwrittenByteIsRefused : Prop :=
  (∀ s b i, i < s.cfg.size b → readByte (buffer s b) i = none →
      perform (.bufRead b i) s = .refused (.unwrittenByte b)) ∧
    (∀ s k isEnd isRaw, s.ibuf.wf → s.inLen.toNat ≤ s.cfg.ibufSize → k < s.inLen.toNat →
      readByte s.ibuf k = none →
      exec .crcUpd s = .refused (.unwrittenByte .ibuf) ∧
      (s.col.toNat < s.line.toNat → exec (.encBlk isEnd) s = .refused (.unwrittenByte .ibuf)) ∧
      (dstateField s.dstate ≠ 7 → exec (.decBlk isRaw) s = .refused (.unwrittenByte .ibuf)) ∧
      (∀ s0, inState s = some s0 → (decodeIncremental (chunkFront s) s0).marker = .none →
        exec .decInc s = .refused (.unwrittenByte .ibuf)) ∧
      (s.nameLen.toNat ≤ s.cfg.nbufSize → 1 ≤ s.line.toNat →
        exec .frmSingle s = .refused (.unwrittenByte .ibuf) ∧ exec .frmMulti s = .refused (.unwrittenByte .ibuf))) ∧
    ∀ s data k, ChunkIs s data → s.nbuf.wf → s.nameLen.toNat ≤ s.cfg.nbufSize → 1 ≤ s.line.toNat →
      k < s.nameLen.toNat → readByte s.nbuf k = none →
      exec .frmSingle s = .refused (.unwrittenByte .nbuf) ∧ exec .frmMulti s = .refused (.unwrittenByte .nbuf)

/-- R42, R32 (93 U9): a host action with no meaning is refused; every other action that is not a read of an unwritten byte
or a command is answered by a next state; and a host read of a written byte of any of the three buffers, `OBUF` among them,
returns that byte and changes nothing else. Where the byte goes, `replies`, is the model's choice (assumption 3). -/
def Obligations.ActionsWithoutMeaningAreRefused : Prop :=
  (∀ s act, act.wf s.cfg = false → ∃ e, perform act s = .refused e) ∧
    (∀ s act, act.wf s.cfg = true → (∀ w, act ≠ .issue w) →
      (∀ b i, act = .bufRead b i → readByte (buffer s b) i ≠ none) → ∃ t, perform act s = .next t) ∧
    ∀ s b i v, i < s.cfg.size b → readByte (buffer s b) i = some v → ∃ t, perform (.bufRead b i) s = .next t ∧
      t.replies = .byte v :: s.replies ∧ SameRegsBut [] s t ∧ (∀ b', SameBytes s t b') ∧ t.cfg = s.cfg ∧
      t.script = s.script

/-- R16, R41: the chunk a command takes is `IBUF[0 : IN_LEN]`, byte `k` at index `k`. -/
def Obligations.ChunkIsTheBytesOfTheBuffer : Prop :=
  ∀ s data, s.ibuf.wf →
    (chunk s = some data ↔ data.length = s.inLen.toNat ∧ ∀ k < data.length, readByte s.ibuf k = data[k]?)

/-! ## Encoding -/

/-- R61, R62: the encoder and the decoder agree on all 2^32 words and all commands. -/
def Obligations.DecodeAndEncodeAgree : Prop :=
  ∀ w i, decode w = .ok i ↔ (w = encode i ∧ i.wf = true)

/-- R62, R63: the legal words are the fifteen listed, and exactly these decode. -/
def Obligations.LegalWordsAreTheFifteen : Prop :=
  ∀ w : Word,
    (legalWord w = true ↔
      w ∈ [0x10#32, 0x11#32, 0x12#32, 0x13#32, 0x14#32, 0x15#32, 0x16#32, 0x20#32, 0x120#32, 0x21#32, 0x30#32,
        0x130#32, 0x31#32, 0x40#32, 0x41#32]) ∧
    ((∃ i, decode w = .ok i) ↔ legalWord w = true)

/-- R62, R63: a word of each unit decodes to its command, and one of each illegal kind to none. -/
def Obligations.SampleWordsDecode : Prop :=
  decode 0x00000010#32 = .ok .crcUpd ∧ decode 0x00000016#32 = .ok .crcPow256 ∧
    decode 0x00000120#32 = .ok (.encBlk true) ∧ decode 0x00000030#32 = .ok (.decBlk false) ∧
    decode 0x00000041#32 = .ok .frmMulti ∧ decode 0x00000131#32 = .error .flagOnFormatN ∧
    decode 0x00000099#32 = .error .unknownOpcode ∧ decode 0x00000210#32 = .error .reservedBits

/-- R64, R114: `0x00000020` and `0x00000120` are the same command. -/
def Obligations.EndFlagHasNoEffect : Prop :=
  ∀ s, issue 0x00000020#32 s = issue 0x00000120#32 s

/-! ## CRC unit -/

/-- `poly(v)` of R81: bit `31 - i` is the coefficient of x^i. -/
noncomputable def Sys2Proof.polyOf (v : Word) : Polynomial (ZMod 2) :=
  ∑ i ∈ Finset.range 32, if v.getLsbD (31 - i) then Polynomial.X ^ i else 0

/-- `G(x)` of R81. -/
noncomputable def Sys2Proof.generator : Polynomial (ZMod 2) := Polynomial.X ^ 32 + polyOf poly

/-- R83, R84: `mul` is multiplication modulo G and `pow2(n)` is x^n modulo G, in the polynomials over GF(2). -/
def Obligations.MulAndPowersArePolynomialArithmetic : Prop :=
  (∀ a b, polyOf (mul a b) = Polynomial.modByMonic (polyOf a * polyOf b) generator) ∧
    ∀ n, polyOf (pow2 n) = Polynomial.modByMonic (Polynomial.X ^ n) generator

/-- R83: the laws of `mul`. -/
def Obligations.MulLaws : Prop :=
  ∀ a b c, mul a b = mul b a ∧ mul (mul a b) c = mul a (mul b c) ∧ mul a (b ^^^ c) = mul a b ^^^ mul a c ∧
    mul a 0x80000000#32 = a ∧ mul a 0 = 0 ∧ mul a 0x40000000#32 = xtime a

/-- R82: `xtime` is a bijection with inverse `xinv`, and linear. -/
def Obligations.XtimeIsALinearBijection : Prop :=
  ∀ a b, xinv (xtime a) = a ∧ xtime (xinv a) = a ∧ xtime (a ^^^ b) = xtime a ^^^ xtime b

/-- R84: `pow2(n)` is `xtime` applied `n` times to `0x80000000` and `pow256(n) = pow2(8·n)`; exponents add under `mul`; and
`2^32 - 1` is the least positive exponent with `pow2` the identity. The model computes by a reduced square and multiply. -/
def Obligations.PowersOfX : Prop :=
  (∀ n, pow2 n = xtimes n 0x80000000#32 ∧ pow256 n = xtimes (8 * n) 0x80000000#32) ∧
    (∀ m n, pow2 (m + n) = mul (pow2 m) (pow2 n)) ∧
    (∀ n, pow2 n = 0x80000000#32 ↔ (2 ^ 32 - 1) ∣ n) ∧ ∀ n, pow2 n = pow2 (n % (2 ^ 32 - 1))

/-- The inner step of R80's loop. -/
def Sys2Proof.crcStep (c : Word) : Word := (c >>> 1) ^^^ (if c.getLsbD 0 then 0xEDB88320#32 else 0x00000000#32)

/-- R88, R80: the combine law gives the CRC of a concatenation from the CRCs of its parts; `unzero` undoes `zeros`; a computation
continues from the previous partial CRC; an empty input returns the seed; and `crc` is the loop of R80, written out. -/
def Obligations.CombineAndContinuationLaws : Prop :=
  (∀ a b : List Byte, crc (a ++ b) 0 = combine (crc a 0) (crc b 0) b.length) ∧
    (∀ c n, unzero (zeros c n) n = c) ∧ (∀ a b v, crc (a ++ b) v = crc b (crc a v)) ∧ (∀ v, crc [] v = v) ∧
    ∀ (data : List Byte) (init : Word), crc data init =
      data.foldl (fun c b => crcStep^[8] (c ^^^ b.setWidth 32)) (init ^^^ 0xFFFFFFFF#32) ^^^ 0xFFFFFFFF#32

/-- R85: `zeros(c, n)` is the CRC after `n` zero bytes; the closed form of R89 is the definition. -/
def Obligations.ZerosAppendsZeroBytes : Prop :=
  ∀ c n, zeros c n = crc (List.replicate n 0) c

/-- R86: `unzero` and `zeros` are mutual inverses, and the CRC before the zero bytes is unique. -/
def Obligations.UnzeroInvertsZeros : Prop :=
  ∀ c n, unzero (zeros c n) n = c ∧ zeros (unzero c n) n = c ∧ ∀ c', zeros c' n = c → c' = unzero c n

/-- R90: `CRC.UPD`, word `0x00000010`, completes with `R = crc(IBUF[0 : IN_LEN], A)` and `A` as it was, and faults `E_RANGE`
when the chunk is longer than `IBUF`. -/
def Obligations.CrcUpdPutsTheChunkCrcInR : Prop :=
  decode 0x00000010#32 = .ok .crcUpd ∧
    (∀ s data, ChunkIs s data →
      ∃ t, exec .crcUpd s = .next t ∧ t.r = crc data s.a ∧ t.a = s.a ∧ Completed s t) ∧
    ∀ s, s.cfg.ibufSize < s.inLen.toNat → exec .crcUpd s = .next (raise .eRange s)

/-- R91, R94: `CRC.COMB` completes with `A` multiplied by x^(8·N) modulo G, xored with `B`; `CRC.MUL` with the product of `A`
and `B`, the same when they are swapped. -/
def Obligations.CrcCombAndMulPutTheirValueInR : Prop :=
  decode 0x00000011#32 = .ok .crcComb ∧ decode 0x00000014#32 = .ok .crcMul ∧
  ∀ s, ∃ t u v, exec .crcComb s = .next t ∧ t.r = mul s.a (xtimes (8 * s.n.toNat) 0x80000000#32) ^^^ s.b ∧
    Completed s t ∧ exec .crcMul s = .next u ∧ u.r = mul s.a s.b ∧ Completed s u ∧
    exec .crcMul { s with a := s.b, b := s.a } = .next v ∧ v.r = u.r

/-- R92, R93: `CRC.ZEROS` completes with the CRC after appending `N` zero bytes; `CRC.UNZERO` with the value from which `N`
zero bytes lead to `A`. -/
def Obligations.CrcZerosAndUnzeroPutTheirValueInR : Prop :=
  decode 0x00000012#32 = .ok .crcZeros ∧ decode 0x00000013#32 = .ok .crcUnzero ∧
  ∀ s, ∃ t u, exec .crcZeros s = .next t ∧ t.r = crc (List.replicate s.n.toNat 0) s.a ∧ Completed s t ∧
    exec .crcUnzero s = .next u ∧ crc (List.replicate s.n.toNat 0) u.r = s.a ∧ Completed s u

/-- R95, R96: `CRC.POW2` and `CRC.POW256` complete with x^N and x^(8·N) modulo G; `8·N` does not wrap. -/
def Obligations.CrcPowersPutThePowerInR : Prop :=
  decode 0x00000015#32 = .ok .crcPow2 ∧ decode 0x00000016#32 = .ok .crcPow256 ∧
  ∀ s, ∃ t u, exec .crcPow2 s = .next t ∧ t.r = xtimes s.n.toNat 0x80000000#32 ∧ Completed s t ∧
    exec .crcPow256 s = .next u ∧ u.r = xtimes (8 * s.n.toNat) 0x80000000#32 ∧ Completed s u

/-- R97: each of the seven commands writes `R` and `STATUS` and nothing else. -/
def Obligations.CrcCommandsFrame : Prop :=
  ∀ i ∈ crcCommands, ∀ s t, exec i s = .next t →
    SameRegsBut [.r, .status] s t ∧ (∀ b, SameBytes s t b) ∧ SamePort s t

/-! ## Encoder unit -/

/-- R113: encoding a stream in chunks with the column carried gives the bytes and the column of encoding it at once, for
every value of the `isEnd` flags. -/
def Obligations.EncodeIsChunkIndependent : Prop :=
  ∀ d1 d2 lineSize col e1 e2 e,
    encodeBytes (d1 ++ d2) lineSize col e =
      ((encodeBytes d1 lineSize col e1).1 ++
          (encodeBytes d2 lineSize (encodeBytes d1 lineSize col e1).2 e2).1,
        (encodeBytes d2 lineSize (encodeBytes d1 lineSize col e1).2 e2).2)

/-- R115, R112: the returned column is in `[0, lineSize)`, and 0 with a non-empty output means the output ends in CR LF. -/
def Obligations.EncodeColumnStaysInTheLine : Prop :=
  ∀ data lineSize col e, col < lineSize →
    (encodeBytes data lineSize col e).2 < lineSize ∧
      ((encodeBytes data lineSize col e).2 = 0 → data ≠ [] →
        ∃ front, (encodeBytes data lineSize col e).1 = front ++ crlf)

/-- R112, R116: the output of a fresh stream is lines of `L` or `L + 1` characters, each followed by CR LF, and a last line
shorter than `L` whose length is the column; CR, LF and NUL occur in no line, and no line starts with `.` or `=y`. -/
def Obligations.EncodedLinesHaveTheirShape : Prop :=
  ∀ data lineSize e, 1 ≤ lineSize → ∃ lines last,
    (encodeBytes data lineSize 0 e).1 = lines.flatMap (· ++ crlf) ++ last ∧
    (encodeBytes data lineSize 0 e).2 = last.length ∧ last.length < lineSize ∧
    (∀ l ∈ lines, l.length = lineSize ∨ l.length = lineSize + 1) ∧
    ∀ l ∈ last :: lines, (∀ x ∈ l, x ≠ 0x0D#8 ∧ x ≠ 0x0A#8 ∧ x ≠ 0x00#8) ∧
      l.head? ≠ some 0x2E#8 ∧ l.take 2 ≠ [0x3D#8, 0x79#8]

/-- R110, R111, R116: which input bytes are escaped, and the five values an escaped byte takes. -/
def Obligations.EscapedBytesAndTheirPairs : Prop :=
  ∀ b col,
    (mustEscape (b + 42#8) col = true ↔
      b ∈ [0xD6#8, 0xE0#8, 0xE3#8, 0x13#8] ∨ (b = 0x04#8 ∧ col = 0)) ∧
    (mustEscape (b + 42#8) col = true →
      encodeChars col b = [0x3D#8, b + 106#8] ∧ b + 106#8 ∈ [0x40#8, 0x4A#8, 0x4D#8, 0x7D#8, 0x6E#8]) ∧
    (mustEscape (b + 42#8) col = false → encodeChars col b = [b + 42#8])

/-- R121, R122: `encMaxLen` bounds the output length, for the default formula and for the free one. The free formula is held to
R121 by the model's construction, which raises it to `worstLen` (assumption 2). -/
def Obligations.EncMaxLenBoundsTheOutput : Prop :=
  ∀ rule data lineSize col e, col < lineSize →
    (encodeBytes data lineSize col e).1.length ≤ encMaxLen rule data.length lineSize

/-- R120: nothing but R121 is assumed of the free formula: every formula with the property of R121 is at least `worstLen`,
so raising it to `worstLen` leaves it as it is (assumption 2). -/
def Obligations.EveryAdmissibleFormulaIsCovered : Prop :=
  ∀ f : Nat → Nat → Nat,
    (∀ data lineSize col e, col < lineSize →
      (encodeBytes data lineSize col e).1.length ≤ f data.length lineSize) →
    ∀ n lineSize, 1 ≤ lineSize → max (f n lineSize) (worstLen n lineSize) = f n lineSize

/-- R117: `ENC.BLK` completes with the encoded chunk in `OBUF` and the column in `COL`; and its faults in check order. -/
def Obligations.EncBlkEncodesTheChunk : Prop :=
  (decode 0x00000020#32 = .ok (.encBlk false) ∧ decode 0x00000120#32 = .ok (.encBlk true)) ∧
  (∀ s data isEnd, s.cfg.wf → ChunkIs s data → s.col.toNat < s.line.toNat →
    (encodeBytes data s.line.toNat s.col.toNat isEnd).1.length ≤ s.cfg.obufSize →
    ∃ t, exec (.encBlk isEnd) s = .next t ∧
      OutputIs t (encodeBytes data s.line.toNat s.col.toNat isEnd).1 ∧
      t.col.toNat = (encodeBytes data s.line.toNat s.col.toNat isEnd).2 ∧ t.col.toNat < t.line.toNat ∧
      SameRegsBut [.outLen, .col, .status] s t ∧ Completed s t) ∧
  ∀ s isEnd,
    (s.cfg.ibufSize < s.inLen.toNat → exec (.encBlk isEnd) s = .next (raise .eRange s)) ∧
    (s.inLen.toNat ≤ s.cfg.ibufSize → s.line = 0 → exec (.encBlk isEnd) s = .next (raise .eRange s)) ∧
    (s.inLen.toNat ≤ s.cfg.ibufSize → s.line ≠ 0 → s.line.toNat ≤ s.col.toNat →
      exec (.encBlk isEnd) s = .next (raise .eRange s)) ∧
    ∀ data, ChunkIs s data → s.col.toNat < s.line.toNat →
      s.cfg.obufSize < (encodeBytes data s.line.toNat s.col.toNat isEnd).1.length →
      exec (.encBlk isEnd) s = .next (raise .eOvf s)

/-- R123: `ENC.MAXLEN` completes with `encMaxLen(N, LINE)` in `MAXLEN`, and faults `E_RANGE` when `LINE = 0` or the value
does not fit 64 bits. -/
def Obligations.EncMaxlenPutsTheBoundInMaxlen : Prop :=
  decode 0x00000021#32 = .ok .encMaxlen ∧ ∀ s,
    (s.line ≠ 0 → encMaxLen s.cfg.maxLen s.n.toNat s.line.toNat < 2 ^ 64 →
      ∃ t, exec .encMaxlen s = .next t ∧ t.maxlen.toNat = encMaxLen s.cfg.maxLen s.n.toNat s.line.toNat ∧
        Completed s t) ∧
    (s.line = 0 → exec .encMaxlen s = .next (raise .eRange s)) ∧
    (s.line ≠ 0 → 2 ^ 64 ≤ encMaxLen s.cfg.maxLen s.n.toNat s.line.toNat →
      exec .encMaxlen s = .next (raise .eRange s))

/-- R117, R123 (what is written), R31: `ENC.BLK` changes no register but `COL`, `OUT_LEN`, `STATUS` and no byte outside
`OBUF`; `ENC.MAXLEN` no register but `MAXLEN`, `STATUS` and no byte. -/
def Obligations.EncoderCommandsFrame : Prop :=
  (∀ s t isEnd, exec (.encBlk isEnd) s = .next t →
      SameRegsBut [.outLen, .col, .status] s t ∧ SameBytes s t .ibuf ∧ SameBytes s t .nbuf ∧ SamePort s t) ∧
    ∀ s t, exec .encMaxlen s = .next t →
      SameRegsBut [.maxlen, .status] s t ∧ (∀ b, SameBytes s t b) ∧ SamePort s t

/-! ## Decoder unit -/

/-- A cell with no output and no end marker. -/
def Sys2Proof.quiet (s : DecState) : DecCell := ⟨s, none, .none⟩

/-- A cell that outputs `v` and goes to state `NONE`. -/
def Sys2Proof.emits (v : Byte) : DecCell := ⟨.none, some v, .none⟩

/-- A row of the table of R140, by its columns CR, LF, `.`, `=`, `y`, other. -/
def Sys2Proof.tableRow (cr lf dot eqs y other : DecCell) (c : Byte) : DecCell :=
  if c = 0x0D#8 then cr else if c = 0x0A#8 then lf else if c = 0x2E#8 then dot else if c = 0x3D#8 then eqs
  else if c = 0x79#8 then y else other

/-- R140: the transition table, all seven rows, for every mode and byte. -/
def Obligations.TransitionTable : Prop :=
  ∀ mode c,
    decStep mode .none c =
      tableRow (quiet .cr) (quiet .none) (emits 0x04#8) (quiet .eq) (emits 0x4F#8) (emits (c - 42#8)) c ∧
    decStep mode .eq c =
      tableRow (emits 0xA3#8) (emits 0xA0#8) (emits 0xC4#8) (emits 0xD3#8) (emits 0x0F#8) (emits (c - 106#8)) c ∧
    decStep mode .cr c =
      tableRow (quiet .cr) (quiet .crlf) (emits 0x04#8) (quiet .eq) (emits 0x4F#8) (emits (c - 42#8)) c ∧
    decStep mode .crlf c =
      tableRow (quiet .cr) (quiet .none) (if unstuffs mode then quiet .crlfdt else emits 0x04#8)
        (if detects mode then quiet .crlfeq else quiet .eq) (emits 0x4F#8) (emits (c - 42#8)) c ∧
    decStep mode .crlfdt c =
      tableRow (quiet .crlfdtcr) (quiet .none) (emits 0x04#8) (quiet .eq) (emits 0x4F#8) (emits (c - 42#8)) c ∧
    decStep mode .crlfdtcr c =
      tableRow (quiet .cr) (if detects mode then ⟨.crlf, none, .control⟩ else quiet .crlf) (emits 0x04#8)
        (quiet .eq) (emits 0x4F#8) (emits (c - 42#8)) c ∧
    decStep mode .crlfeq c =
      tableRow (emits 0xA3#8) (emits 0xA0#8) (emits 0xC4#8) (emits 0xD3#8)
        (if detects mode then ⟨.none, none, .article⟩ else emits 0x0F#8) (emits (c - 106#8)) c

/-- R144: decoding is resumable at every chunk boundary, bounded and incremental. -/
def Obligations.DecodeIsResumable : Prop :=
  (∀ d1 d2 isRaw s0, decodeBlock (d1 ++ d2) isRaw s0 =
      ((decodeBlock d1 isRaw s0).1 ++ (decodeBlock d2 isRaw (decodeBlock d1 isRaw s0).2).1,
        (decodeBlock d2 isRaw (decodeBlock d1 isRaw s0).2).2)) ∧
    ∀ d1 d2 s0,
      ((decodeIncremental d1 s0).marker = .none → decodeIncremental (d1 ++ d2) s0 =
        ⟨(decodeIncremental d1 s0).out ++ (decodeIncremental d2 (decodeIncremental d1 s0).state).out,
          (decodeIncremental d2 (decodeIncremental d1 s0).state).marker,
          (decodeIncremental d2 (decodeIncremental d1 s0).state).state,
          d1.length + (decodeIncremental d2 (decodeIncremental d1 s0).state).consumed⟩) ∧
      ((decodeIncremental d1 s0).marker ≠ .none → decodeIncremental (d1 ++ d2) s0 = decodeIncremental d1 s0)

/-- R148: what the encoder writes the decoder reads back, whole or split, with and without unstuffing, and incrementally. -/
def Obligations.EncodeDecodeRoundTrip : Prop :=
  ∀ d d' lineSize isRaw e e', 1 ≤ lineSize →
    (decodeBlock (encodeBytes d lineSize 0 e).1 isRaw .crlf).1 = d ∧
    (decodeIncremental (encodeBytes d lineSize 0 e).1 .crlf).out = d ∧
    (decodeIncremental (encodeBytes d lineSize 0 e).1 .crlf).marker = .none ∧
    (decodeIncremental (encodeBytes d lineSize 0 e).1 .crlf).consumed = (encodeBytes d lineSize 0 e).1.length ∧
    (decodeBlock ((encodeBytes d lineSize 0 e).1 ++
      (encodeBytes d' lineSize (encodeBytes d lineSize 0 e).2 e').1) isRaw .crlf).1 = d ++ d'

/-- R142, R147: how far the incremental function goes. Without a terminator it takes all of the chunk; with one it stops
just past its last byte, in state `CRLF` or `NONE`, and does not examine what follows. -/
def Obligations.IncrementalStopsAtTheTerminator : Prop :=
  ∀ data s0,
    (decodeIncremental data s0).consumed ≤ data.length ∧
    (decodeIncremental data s0).out.length ≤ (decodeIncremental data s0).consumed ∧
    ((decodeIncremental data s0).marker = .none → (decodeIncremental data s0).consumed = data.length) ∧
    ((decodeIncremental data s0).marker ≠ .none → 1 ≤ (decodeIncremental data s0).consumed ∧
      ∀ rest, decodeIncremental (data.take (decodeIncremental data s0).consumed ++ rest) s0 =
        decodeIncremental data s0) ∧
    ((decodeIncremental data s0).marker = .control → (decodeIncremental data s0).state = .crlf) ∧
    ((decodeIncremental data s0).marker = .article → (decodeIncremental data s0).state = .none)

/-- R143: a reported terminator is one of the two patterns, its leading CR LF implicit at the start of a fresh stream. -/
def Obligations.TerminatorsAreTheTwoPatterns : Prop :=
  ∀ data,
    ((decodeIncremental data .crlf).marker = .control →
      [0x0D#8, 0x0A#8, 0x2E#8, 0x0D#8, 0x0A#8] <:+ crlf ++ data.take (decodeIncremental data .crlf).consumed) ∧
    ((decodeIncremental data .crlf).marker = .article →
      [0x0D#8, 0x0A#8, 0x3D#8, 0x79#8] <:+ crlf ++ data.take (decodeIncremental data .crlf).consumed)

/-- R143, R173, R245: an encoded payload followed by either terminator decodes to its bytes, and decoding stops just past the
terminator, whatever follows. -/
def Obligations.PayloadThenTerminatorDecodes : Prop :=
  ∀ d lineSize rest, 1 ≤ lineSize →
    decodeIncremental (payload d lineSize ++ [0x3D#8, 0x79#8] ++ rest) .crlf =
      ⟨d, .article, .none, (payload d lineSize).length + 2⟩ ∧
    decodeIncremental (payload d lineSize ++ [0x2E#8, 0x0D#8, 0x0A#8] ++ rest) .crlf =
      ⟨d, .control, .crlf, (payload d lineSize).length + 3⟩

/-- R146: `DEC.BLK` completes with the decoded chunk in `OBUF`, the state in `DSTATE`, no end marker, all consumed; and its
faults in check order. -/
def Obligations.DecBlkDecodesTheChunk : Prop :=
  (decode 0x00000030#32 = .ok (.decBlk false) ∧ decode 0x00000130#32 = .ok (.decBlk true)) ∧
  (∀ s data s0 isRaw, s.cfg.wf → ChunkIs s data → inState s = some s0 →
      (decodeBlock data isRaw s0).1.length ≤ s.cfg.obufSize →
      ∃ t, exec (.decBlk isRaw) s = .next t ∧ OutputIs t (decodeBlock data isRaw s0).1 ∧
        inState t = some (decodeBlock data isRaw s0).2 ∧ t.dend = 0 ∧ t.consumed = s.inLen ∧ Completed s t) ∧
    ∀ s isRaw,
      (s.cfg.ibufSize < s.inLen.toNat → exec (.decBlk isRaw) s = .next (raise .eRange s)) ∧
      (s.inLen.toNat ≤ s.cfg.ibufSize → dstateField s.dstate = 7 →
        exec (.decBlk isRaw) s = .next (raise .eState s)) ∧
      ∀ data s0, ChunkIs s data → inState s = some s0 → s.cfg.obufSize < (decodeBlock data isRaw s0).1.length →
        exec (.decBlk isRaw) s = .next (raise .eOvf s)

/-- R147: `DEC.INC` completes with the chunk decoded up to its first terminator, if any; and its faults in check order. -/
def Obligations.DecIncDecodesToTheTerminator : Prop :=
  decode 0x00000031#32 = .ok .decInc ∧
  (∀ s data s0, s.cfg.wf → ChunkIs s data → inState s = some s0 →
      (decodeIncremental data s0).out.length ≤ s.cfg.obufSize →
      ∃ t, exec .decInc s = .next t ∧ OutputIs t (decodeIncremental data s0).out ∧
        inState t = some (decodeIncremental data s0).state ∧
        t.dend = dendWord (decodeIncremental data s0).marker ∧
        t.consumed.toNat = (decodeIncremental data s0).consumed ∧ Completed s t) ∧
    ∀ s,
      (s.cfg.ibufSize < s.inLen.toNat → exec .decInc s = .next (raise .eRange s)) ∧
      (s.inLen.toNat ≤ s.cfg.ibufSize → dstateField s.dstate = 7 → exec .decInc s = .next (raise .eState s)) ∧
      ∀ data s0, ChunkIs s data → inState s = some s0 → s.cfg.obufSize < (decodeIncremental data s0).out.length →
        exec .decInc s = .next (raise .eOvf s)

/-- D22 with the model's reading of R48 (assumption 6): when the written bytes at the front of the chunk hold a terminator,
`DEC.INC` completes whatever the rest of the chunk holds; when they hold none and stop short, it is refused. -/
def Obligations.DecIncExaminesNothingAfterTheTerminator : Prop :=
  ∀ s s0, s.inLen.toNat ≤ s.cfg.ibufSize → inState s = some s0 →
    ((decodeIncremental (chunkFront s) s0).marker ≠ .none →
      (decodeIncremental (chunkFront s) s0).out.length ≤ s.cfg.obufSize →
      ∃ t, exec .decInc s = .next t ∧ readBytes t.obuf (decodeIncremental (chunkFront s) s0).out.length =
          some (decodeIncremental (chunkFront s) s0).out ∧ Completed s t) ∧
    ((decodeIncremental (chunkFront s) s0).marker = .none → (chunkFront s).length < s.inLen.toNat →
      exec .decInc s = .refused (.unwrittenByte .ibuf))

/-- R146, R147 (what is written), R31: a decode command changes no register but `OUT_LEN`, `DSTATE`, `DEND`, `CONSUMED`,
`STATUS` and no byte outside `OBUF`. -/
def Obligations.DecoderCommandsFrame : Prop :=
  ∀ s t isRaw, exec (.decBlk isRaw) s = .next t ∨ exec .decInc s = .next t →
    SameRegsBut [.outLen, .dstate, .dend, .consumed, .status] s t ∧ SameBytes s t .ibuf ∧ SameBytes s t .nbuf ∧
      SamePort s t

/-! ## Framer unit -/

/-- R176, R177: `dec(n)` is decimal digits, most significant first, without a leading zero, whose value is `n`; `hex8(v)` is
eight digits `0` to `9`, `a` to `f`, most significant first, whose value is `v`. -/
def Obligations.NumbersInTextAreTheNumbers : Prop :=
  (∀ n, (dec n).foldl (fun acc ch => 10 * acc + (ch.toNat - 0x30)) 0 = n ∧
    (∀ ch ∈ dec n, 0x30 ≤ ch.toNat ∧ ch.toNat ≤ 0x39) ∧ dec n ≠ [] ∧ ((dec n).head? = some 0x30#8 → dec n = [0x30#8])) ∧
  ∀ v, (hex8 v).length = 8 ∧
    (∀ ch ∈ hex8 v, (0x30 ≤ ch.toNat ∧ ch.toNat ≤ 0x39) ∨ (0x61 ≤ ch.toNat ∧ ch.toNat ≤ 0x66)) ∧
    (hex8 v).foldl (fun acc ch => 16 * acc + (if ch.toNat ≤ 0x39 then ch.toNat - 0x30 else ch.toNat - 0x57)) 0 =
      v.toNat

/-- R172: which data and names are valid. -/
def Obligations.ValidDataAndNames : Prop :=
  ∀ data name, validArgs data name = true ↔
    data ≠ [] ∧ (∃ ch ∈ name, ch ∉ [0x09#8, 0x0A#8, 0x0B#8, 0x0C#8, 0x0D#8, 0x20#8]) ∧ 0x0D#8 ∉ name ∧
      0x0A#8 ∉ name

/-- `term(p)` of R173: `p`, and CR LF unless it ends so. -/
def Sys2Proof.withCrlf (p : List Byte) : List Byte := if [0x0D#8, 0x0A#8] <:+ p then p else p ++ [0x0D#8, 0x0A#8]

/-- The text of R174, its fixed bytes written out: `=ybegin line=`, ` size=`, ` name=`, CR LF, the payload, `=yend size=`,
` crc32=`, CR LF. -/
def Sys2Proof.singleFrame (data name : List Byte) (lineSize : Nat) : List Byte :=
  [0x3D#8, 0x79#8, 0x62#8, 0x65#8, 0x67#8, 0x69#8, 0x6E#8, 0x20#8, 0x6C#8, 0x69#8, 0x6E#8, 0x65#8, 0x3D#8]
    ++ dec lineSize
    ++ [0x20#8, 0x73#8, 0x69#8, 0x7A#8, 0x65#8, 0x3D#8] ++ dec data.length
    ++ [0x20#8, 0x6E#8, 0x61#8, 0x6D#8, 0x65#8, 0x3D#8] ++ name ++ [0x0D#8, 0x0A#8]
    ++ withCrlf (encodeBytes data lineSize 0 true).1
    ++ [0x3D#8, 0x79#8, 0x65#8, 0x6E#8, 0x64#8, 0x20#8, 0x73#8, 0x69#8, 0x7A#8, 0x65#8, 0x3D#8] ++ dec data.length
    ++ [0x20#8, 0x63#8, 0x72#8, 0x63#8, 0x33#8, 0x32#8, 0x3D#8] ++ hex8 (crc data 0) ++ [0x0D#8, 0x0A#8]

/-- The text of part `k` of R175, its fixed bytes written out: `=ybegin part=`, ` total=`, ` line=`, ` size=`, ` name=`, CR LF,
`=ypart begin=`, ` end=`, CR LF, the payload, `=yend size=`, ` part=`, ` pcrc32=`, ` crc32=`, CR LF. The part is the bytes
from `start` (0-indexed, inclusive) to `stop` (exclusive). -/
def Sys2Proof.partFrame (data name : List Byte) (partSize lineSize k : Nat) : List Byte :=
  let start := (k - 1) * partSize
  let stop := min (k * partSize) data.length
  let d := (data.take stop).drop start
  [0x3D#8, 0x79#8, 0x62#8, 0x65#8, 0x67#8, 0x69#8, 0x6E#8, 0x20#8, 0x70#8, 0x61#8, 0x72#8, 0x74#8, 0x3D#8]
    ++ dec k
    ++ [0x20#8, 0x74#8, 0x6F#8, 0x74#8, 0x61#8, 0x6C#8, 0x3D#8] ++ dec ((data.length + partSize - 1) / partSize)
    ++ [0x20#8, 0x6C#8, 0x69#8, 0x6E#8, 0x65#8, 0x3D#8] ++ dec lineSize
    ++ [0x20#8, 0x73#8, 0x69#8, 0x7A#8, 0x65#8, 0x3D#8] ++ dec data.length
    ++ [0x20#8, 0x6E#8, 0x61#8, 0x6D#8, 0x65#8, 0x3D#8] ++ name ++ [0x0D#8, 0x0A#8]
    ++ [0x3D#8, 0x79#8, 0x70#8, 0x61#8, 0x72#8, 0x74#8, 0x20#8, 0x62#8, 0x65#8, 0x67#8, 0x69#8, 0x6E#8, 0x3D#8]
    ++ dec (start + 1)
    ++ [0x20#8, 0x65#8, 0x6E#8, 0x64#8, 0x3D#8] ++ dec stop ++ [0x0D#8, 0x0A#8]
    ++ withCrlf (encodeBytes d lineSize 0 true).1
    ++ [0x3D#8, 0x79#8, 0x65#8, 0x6E#8, 0x64#8, 0x20#8, 0x73#8, 0x69#8, 0x7A#8, 0x65#8, 0x3D#8] ++ dec (stop - start)
    ++ [0x20#8, 0x70#8, 0x61#8, 0x72#8, 0x74#8, 0x3D#8] ++ dec k
    ++ [0x20#8, 0x70#8, 0x63#8, 0x72#8, 0x63#8, 0x33#8, 0x32#8, 0x3D#8] ++ hex8 (crc d 0)
    ++ [0x20#8, 0x63#8, 0x72#8, 0x63#8, 0x33#8, 0x32#8, 0x3D#8] ++ hex8 (crc data 0) ++ [0x0D#8, 0x0A#8]

/-- R178, R171, R174: `FRM.SINGLE` completes with the article's text in `OBUF`, which is the bytes of R174, and its four fields in
the article registers. -/
def Obligations.FrmSingleFramesTheChunk : Prop :=
  ∀ s data name, s.cfg.wf → ChunkIs s data → NameIs s name → 1 ≤ s.line.toNat → validArgs data name = true →
    (singleArticle data name s.line.toNat).text.length ≤ s.cfg.obufSize →
    (singleArticle data name s.line.toNat).text = singleFrame data name s.line.toNat ∧
    ∃ t, exec .frmSingle s = .next t ∧ OutputIs t (singleFrame data name s.line.toNat) ∧ t.apart = 1 ∧
      t.atotal = 1 ∧ t.fcrc = crc data 0 ∧ t.pcrc = crc data 0 ∧ Completed s t

/-- R179, R171, R175: `FRM.MULTI` completes with article `PART` of the list of R175, whose text is the bytes of R174 when the data
fit one part and those of R175 otherwise. -/
def Obligations.FrmMultiFramesTheSelectedPart : Prop :=
  ∀ s data name art, s.cfg.wf → ChunkIs s data → NameIs s name → 1 ≤ s.line.toNat → validArgs data name = true →
    0 < s.psize.toInt → 1 ≤ s.part.toNat →
    (multiArticles data name s.psize.toNat s.line.toNat)[s.part.toNat - 1]? = some art →
    art.text.length ≤ s.cfg.obufSize →
    (art.text = if data.length ≤ s.psize.toNat then singleFrame data name s.line.toNat
      else partFrame data name s.psize.toNat s.line.toNat s.part.toNat) ∧
    ∃ t, exec .frmMulti s = .next t ∧ OutputIs t art.text ∧ t.apart = s.part ∧ t.apart.toNat = art.partNumber ∧
      t.atotal.toNat = (data.length + s.psize.toNat - 1) / s.psize.toNat ∧ t.atotal.toNat = art.totalParts ∧
      t.fcrc = crc data 0 ∧ t.fcrc = art.crc32 ∧ t.pcrc = art.partCrc32 ∧
      t.pcrc = crc ((data.take (s.part.toNat * s.psize.toNat)).drop ((s.part.toNat - 1) * s.psize.toNat)) 0 ∧
      Completed s t

/-- R178, R179, R201, R204: the faults of the framer commands in check order. -/
def Obligations.FramerFaultsInOrder : Prop :=
  (∀ s i, i = .frmSingle ∨ i = .frmMulti →
      s.cfg.ibufSize < s.inLen.toNat ∨ s.cfg.nbufSize < s.nameLen.toNat ∨ s.line = 0 →
      exec i s = .next (raise .eRange s)) ∧
    ∀ s data name, ChunkIs s data → NameIs s name → s.line ≠ 0 →
      (validArgs data name = false →
        exec .frmSingle s = .next (raise .eArg s) ∧ exec .frmMulti s = .next (raise .eArg s)) ∧
      (s.psize.toInt ≤ 0 → exec .frmMulti s = .next (raise .eArg s)) ∧
      (validArgs data name = true → 0 < s.psize.toInt →
        s.part = 0 ∨ (multiArticles data name s.psize.toNat s.line.toNat).length < s.part.toNat →
        exec .frmMulti s = .next (raise .eRange s)) ∧
      (validArgs data name = true → s.cfg.obufSize < (singleArticle data name s.line.toNat).text.length →
        exec .frmSingle s = .next (raise .eOvf s)) ∧
      ∀ art, validArgs data name = true → 0 < s.psize.toInt → 1 ≤ s.part.toNat →
        (multiArticles data name s.psize.toNat s.line.toNat)[s.part.toNat - 1]? = some art →
        s.cfg.obufSize < art.text.length → exec .frmMulti s = .next (raise .eOvf s)

/-- R180: the articles are `ceil(len / P)` many, one of single-part form when the data fit one part, and each carries its part's
CRC and the full one; the parts are contiguous and cover the data, all of `P` bytes but the last; their payloads decode to
them; and their CRCs combine to the full one. -/
def Obligations.PartsCoverTheData : Prop :=
  ∀ data name partSize lineSize isRaw, 1 ≤ partSize → 1 ≤ lineSize → data ≠ [] →
    (multiArticles data name partSize lineSize).length = partCount data.length partSize ∧
    (data.length ≤ partSize → multiArticles data name partSize lineSize = [singleArticle data name lineSize]) ∧
    (∀ k < partCount data.length partSize, ∃ art, (multiArticles data name partSize lineSize)[k]? = some art ∧
      art.partNumber = k + 1 ∧ art.totalParts = partCount data.length partSize ∧ art.crc32 = crc data 0 ∧
      art.partCrc32 = crc (partBytes data partSize (k + 1)) 0) ∧
    (List.range (partCount data.length partSize)).flatMap (fun j => partBytes data partSize (j + 1)) = data ∧
    (∀ k, 1 ≤ k → k < partCount data.length partSize → (partBytes data partSize k).length = partSize) ∧
    (1 ≤ (partBytes data partSize (partCount data.length partSize)).length ∧
      (partBytes data partSize (partCount data.length partSize)).length ≤ partSize ∧
      (partBytes data partSize (partCount data.length partSize)).length =
        data.length - (partCount data.length partSize - 1) * partSize) ∧
    (∀ k, (decodeBlock (payload (partBytes data partSize k) lineSize) isRaw .crlf).1 =
      partBytes data partSize k) ∧
    (List.range (partCount data.length partSize - 1)).foldl
      (fun acc j => combine acc (crc (partBytes data partSize (j + 2)) 0) (partBytes data partSize (j + 2)).length)
      (crc (partBytes data partSize 1) 0) = crc data 0

/-- R181, R31: a framer command changes no register but `OUT_LEN`, `APART`, `ATOTAL`, `FCRC`, `PCRC`, `STATUS` and no byte
outside `OBUF`. -/
def Obligations.FramerCommandsFrame : Prop :=
  ∀ s t i, i = .frmSingle ∨ i = .frmMulti → exec i s = .next t →
    SameRegsBut [.outLen, .apart, .atotal, .fcrc, .pcrc, .status] s t ∧ SameBytes s t .ibuf ∧
      SameBytes s t .nbuf ∧ SamePort s t

/-! ## The whole machine -/

/-- R203: a command that faults writes `STATUS` and nothing else. -/
def Obligations.FaultsArePrecise : Prop :=
  ∀ i s t, exec i s = .next t → statusCode t.status ≠ 0 →
    statusSticky t.status = true ∧ SameRegsBut [.status] s t ∧ (∀ b, SameBytes s t b) ∧ SamePort s t

/-- R11, R66, R201, R202: after every command `STATUS` holds a code the command can leave there (the six algebra commands
never fault) and the sticky bit, which a fault sets and a command that completes leaves as it was; the reserved bits are
zero. -/
def Obligations.StatusAfterEveryCommand : Prop :=
  ∀ i s t, exec i s = .next t →
    statusCode t.status ∈ codesOf i ∧ t.status.extractLsb' 9 23 = 0 ∧
      (statusCode t.status = 0 → statusSticky t.status = statusSticky s.status) ∧
      (statusCode t.status ≠ 0 → statusSticky t.status = true)

/-- R12 to R14, R16, R18, R23 to R25, R31: no command writes a host operand register, `IBUF` or `NBUF`. -/
def Obligations.CommandsNeverWriteHostOperands : Prop :=
  ∀ i s t, exec i s = .next t →
    (∀ reg ∈ [Reg.a, .b, .n, .inLen, .line, .nameLen, .psize, .part], readReg t reg = readReg s reg) ∧
      SameBytes s t .ibuf ∧ SameBytes s t .nbuf ∧ SamePort s t

/-- R242: an `OBUF` of `encMaxLen(IN_LEN, LINE)` bytes is enough for `ENC.BLK`, one of `IN_LEN` bytes for the decode commands; and
a frame's payload needs at most `encMaxLen` and two bytes. -/
def Obligations.SafeCapacityMeansNoOverflow : Prop :=
  (∀ s t isEnd, encMaxLen s.cfg.maxLen s.inLen.toNat s.line.toNat ≤ s.cfg.obufSize →
      exec (.encBlk isEnd) s = .next t → statusCode t.status ≠ 5) ∧
    (∀ s t isRaw, s.inLen.toNat ≤ s.cfg.obufSize → exec (.decBlk isRaw) s = .next t → statusCode t.status ≠ 5) ∧
    (∀ s t, s.inLen.toNat ≤ s.cfg.obufSize → exec .decInc s = .next t → statusCode t.status ≠ 5) ∧
    ∀ rule d lineSize, 1 ≤ lineSize → (payload d lineSize).length ≤ encMaxLen rule d.length lineSize + 2

/-- R232: straight after reset, at every capacity, the CRC, encode and decode commands complete with an empty output (`ENC.MAXLEN`
with the default formula), and the framer commands fault `E_ARG`. -/
def Obligations.CommandsStraightAfterReset : Prop :=
  ∀ c : Config.Params, ∀ s, s = { State.reset with cfg := c } →
    (∀ i ∈ [Instr.crcUpd, .crcComb, .crcZeros, .crcUnzero, .crcMul], ∃ t, exec i s = .next t ∧ t.status = 0 ∧ t.r = 0) ∧
    (∀ i ∈ [Instr.crcPow2, .crcPow256], ∃ t, exec i s = .next t ∧ t.status = 0 ∧ t.r = 0x80000000#32) ∧
    (∀ i ∈ [Instr.encBlk false, .encBlk true, .decBlk false, .decBlk true, .decInc],
      ∃ t, exec i s = .next t ∧ t.status = 0 ∧ t.outLen = 0) ∧
    (c.maxLen = .dflt → ∃ t, exec .encMaxlen s = .next t ∧ t.status = 0 ∧ t.maxlen = 0) ∧
    ∀ i ∈ [Instr.frmSingle, .frmMulti], exec i s = .next (raise .eArg s)

/-- R34: no command reads `STATUS` or `DEND`. Two states that differ in these alone run every command alike: the same
refusal, or next states that again differ in these alone, with the same code. -/
def Obligations.NoCommandReadsTheFlags : Prop :=
  ∀ i s w e,
    (∀ x, exec i s = .refused x → exec i { s with status := w, dend := e } = .refused x) ∧
    ∀ t, exec i s = .next t → ∃ u, exec i { s with status := w, dend := e } = .next u ∧
      { u with status := 0, dend := 0 } = { t with status := 0, dend := 0 } ∧
      statusCode u.status = statusCode t.status

/-- The invariant holds at reset. That the capacities there are admissible is the model's choice of them (assumption 1). -/
def Obligations.GoodHoldsAtReset : Prop := State.reset.Good

/-- R10, R11, R20, R21, R49, R22, R26, R27: every step from a good state that answers a next state answers a good one. -/
def Obligations.StepKeepsGood : Prop :=
  ∀ s t, s.Good → step s = .next t → t.Good
end

