-- ==== Sys2Proof/Laws/State.lean ====
section
/-! SUPPORT. One lemma per field per named update of `State`, so that no proof unfolds a record update. -/

namespace Sys2Proof.Machine

/-! The fault entry (R203). -/

@[simp] theorem raise_cfg (c : FaultCode) (s : State) : (raise c s).cfg = s.cfg := rfl
@[simp] theorem raise_status (c : FaultCode) (s : State) : (raise c s).status = statusWord true (codeNumber c) := rfl
@[simp] theorem raise_a (c : FaultCode) (s : State) : (raise c s).a = s.a := rfl
@[simp] theorem raise_b (c : FaultCode) (s : State) : (raise c s).b = s.b := rfl
@[simp] theorem raise_n (c : FaultCode) (s : State) : (raise c s).n = s.n := rfl
@[simp] theorem raise_r (c : FaultCode) (s : State) : (raise c s).r = s.r := rfl
@[simp] theorem raise_inLen (c : FaultCode) (s : State) : (raise c s).inLen = s.inLen := rfl
@[simp] theorem raise_outLen (c : FaultCode) (s : State) : (raise c s).outLen = s.outLen := rfl
@[simp] theorem raise_line (c : FaultCode) (s : State) : (raise c s).line = s.line := rfl
@[simp] theorem raise_col (c : FaultCode) (s : State) : (raise c s).col = s.col := rfl
@[simp] theorem raise_dstate (c : FaultCode) (s : State) : (raise c s).dstate = s.dstate := rfl
@[simp] theorem raise_dend (c : FaultCode) (s : State) : (raise c s).dend = s.dend := rfl
@[simp] theorem raise_consumed (c : FaultCode) (s : State) : (raise c s).consumed = s.consumed := rfl
@[simp] theorem raise_nameLen (c : FaultCode) (s : State) : (raise c s).nameLen = s.nameLen := rfl
@[simp] theorem raise_psize (c : FaultCode) (s : State) : (raise c s).psize = s.psize := rfl
@[simp] theorem raise_part (c : FaultCode) (s : State) : (raise c s).part = s.part := rfl
@[simp] theorem raise_apart (c : FaultCode) (s : State) : (raise c s).apart = s.apart := rfl
@[simp] theorem raise_atotal (c : FaultCode) (s : State) : (raise c s).atotal = s.atotal := rfl
@[simp] theorem raise_fcrc (c : FaultCode) (s : State) : (raise c s).fcrc = s.fcrc := rfl
@[simp] theorem raise_pcrc (c : FaultCode) (s : State) : (raise c s).pcrc = s.pcrc := rfl
@[simp] theorem raise_maxlen (c : FaultCode) (s : State) : (raise c s).maxlen = s.maxlen := rfl
@[simp] theorem raise_ibuf (c : FaultCode) (s : State) : (raise c s).ibuf = s.ibuf := rfl
@[simp] theorem raise_obuf (c : FaultCode) (s : State) : (raise c s).obuf = s.obuf := rfl
@[simp] theorem raise_nbuf (c : FaultCode) (s : State) : (raise c s).nbuf = s.nbuf := rfl
@[simp] theorem raise_script (c : FaultCode) (s : State) : (raise c s).script = s.script := rfl
@[simp] theorem raise_replies (c : FaultCode) (s : State) : (raise c s).replies = s.replies := rfl

/-! Completion (R66). -/

@[simp] theorem complete_cfg (s : State) : (complete s).cfg = s.cfg := rfl
@[simp] theorem complete_status (s : State) : (complete s).status = statusWord (statusSticky s.status) 0 := rfl
@[simp] theorem complete_a (s : State) : (complete s).a = s.a := rfl
@[simp] theorem complete_b (s : State) : (complete s).b = s.b := rfl
@[simp] theorem complete_n (s : State) : (complete s).n = s.n := rfl
@[simp] theorem complete_r (s : State) : (complete s).r = s.r := rfl
@[simp] theorem complete_inLen (s : State) : (complete s).inLen = s.inLen := rfl
@[simp] theorem complete_outLen (s : State) : (complete s).outLen = s.outLen := rfl
@[simp] theorem complete_line (s : State) : (complete s).line = s.line := rfl
@[simp] theorem complete_col (s : State) : (complete s).col = s.col := rfl
@[simp] theorem complete_dstate (s : State) : (complete s).dstate = s.dstate := rfl
@[simp] theorem complete_dend (s : State) : (complete s).dend = s.dend := rfl
@[simp] theorem complete_consumed (s : State) : (complete s).consumed = s.consumed := rfl
@[simp] theorem complete_nameLen (s : State) : (complete s).nameLen = s.nameLen := rfl
@[simp] theorem complete_psize (s : State) : (complete s).psize = s.psize := rfl
@[simp] theorem complete_part (s : State) : (complete s).part = s.part := rfl
@[simp] theorem complete_apart (s : State) : (complete s).apart = s.apart := rfl
@[simp] theorem complete_atotal (s : State) : (complete s).atotal = s.atotal := rfl
@[simp] theorem complete_fcrc (s : State) : (complete s).fcrc = s.fcrc := rfl
@[simp] theorem complete_pcrc (s : State) : (complete s).pcrc = s.pcrc := rfl
@[simp] theorem complete_maxlen (s : State) : (complete s).maxlen = s.maxlen := rfl
@[simp] theorem complete_ibuf (s : State) : (complete s).ibuf = s.ibuf := rfl
@[simp] theorem complete_obuf (s : State) : (complete s).obuf = s.obuf := rfl
@[simp] theorem complete_nbuf (s : State) : (complete s).nbuf = s.nbuf := rfl
@[simp] theorem complete_script (s : State) : (complete s).script = s.script := rfl
@[simp] theorem complete_replies (s : State) : (complete s).replies = s.replies := rfl

/-! The output of a command (R49). -/

@[simp] theorem putOutput_cfg (out : List Byte) (s : State) : (putOutput out s).cfg = s.cfg := rfl
@[simp] theorem putOutput_status (out : List Byte) (s : State) : (putOutput out s).status = s.status := rfl
@[simp] theorem putOutput_a (out : List Byte) (s : State) : (putOutput out s).a = s.a := rfl
@[simp] theorem putOutput_b (out : List Byte) (s : State) : (putOutput out s).b = s.b := rfl
@[simp] theorem putOutput_n (out : List Byte) (s : State) : (putOutput out s).n = s.n := rfl
@[simp] theorem putOutput_r (out : List Byte) (s : State) : (putOutput out s).r = s.r := rfl
@[simp] theorem putOutput_inLen (out : List Byte) (s : State) : (putOutput out s).inLen = s.inLen := rfl
@[simp] theorem putOutput_outLen (out : List Byte) (s : State) :
    (putOutput out s).outLen = BitVec.ofNat 64 out.length := rfl
@[simp] theorem putOutput_line (out : List Byte) (s : State) : (putOutput out s).line = s.line := rfl
@[simp] theorem putOutput_col (out : List Byte) (s : State) : (putOutput out s).col = s.col := rfl
@[simp] theorem putOutput_dstate (out : List Byte) (s : State) : (putOutput out s).dstate = s.dstate := rfl
@[simp] theorem putOutput_dend (out : List Byte) (s : State) : (putOutput out s).dend = s.dend := rfl
@[simp] theorem putOutput_consumed (out : List Byte) (s : State) : (putOutput out s).consumed = s.consumed := rfl
@[simp] theorem putOutput_nameLen (out : List Byte) (s : State) : (putOutput out s).nameLen = s.nameLen := rfl
@[simp] theorem putOutput_psize (out : List Byte) (s : State) : (putOutput out s).psize = s.psize := rfl
@[simp] theorem putOutput_part (out : List Byte) (s : State) : (putOutput out s).part = s.part := rfl
@[simp] theorem putOutput_apart (out : List Byte) (s : State) : (putOutput out s).apart = s.apart := rfl
@[simp] theorem putOutput_atotal (out : List Byte) (s : State) : (putOutput out s).atotal = s.atotal := rfl
@[simp] theorem putOutput_fcrc (out : List Byte) (s : State) : (putOutput out s).fcrc = s.fcrc := rfl
@[simp] theorem putOutput_pcrc (out : List Byte) (s : State) : (putOutput out s).pcrc = s.pcrc := rfl
@[simp] theorem putOutput_maxlen (out : List Byte) (s : State) : (putOutput out s).maxlen = s.maxlen := rfl
@[simp] theorem putOutput_ibuf (out : List Byte) (s : State) : (putOutput out s).ibuf = s.ibuf := rfl
@[simp] theorem putOutput_obuf (out : List Byte) (s : State) : (putOutput out s).obuf = bytesFrom 0 out := rfl
@[simp] theorem putOutput_nbuf (out : List Byte) (s : State) : (putOutput out s).nbuf = s.nbuf := rfl
@[simp] theorem putOutput_script (out : List Byte) (s : State) : (putOutput out s).script = s.script := rfl
@[simp] theorem putOutput_replies (out : List Byte) (s : State) : (putOutput out s).replies = s.replies := rfl

/-! The registers a decode command writes (R146, R147). -/

@[simp] theorem putDecode_cfg (d : DecState) (e : EndMarker) (k : Len) (s : State) :
    (putDecode d e k s).cfg = s.cfg := rfl
@[simp] theorem putDecode_status (d : DecState) (e : EndMarker) (k : Len) (s : State) :
    (putDecode d e k s).status = s.status := rfl
@[simp] theorem putDecode_a (d : DecState) (e : EndMarker) (k : Len) (s : State) : (putDecode d e k s).a = s.a := rfl
@[simp] theorem putDecode_b (d : DecState) (e : EndMarker) (k : Len) (s : State) : (putDecode d e k s).b = s.b := rfl
@[simp] theorem putDecode_n (d : DecState) (e : EndMarker) (k : Len) (s : State) : (putDecode d e k s).n = s.n := rfl
@[simp] theorem putDecode_r (d : DecState) (e : EndMarker) (k : Len) (s : State) : (putDecode d e k s).r = s.r := rfl
@[simp] theorem putDecode_inLen (d : DecState) (e : EndMarker) (k : Len) (s : State) :
    (putDecode d e k s).inLen = s.inLen := rfl
@[simp] theorem putDecode_outLen (d : DecState) (e : EndMarker) (k : Len) (s : State) :
    (putDecode d e k s).outLen = s.outLen := rfl
@[simp] theorem putDecode_line (d : DecState) (e : EndMarker) (k : Len) (s : State) :
    (putDecode d e k s).line = s.line := rfl
@[simp] theorem putDecode_col (d : DecState) (e : EndMarker) (k : Len) (s : State) :
    (putDecode d e k s).col = s.col := rfl
@[simp] theorem putDecode_dstate (d : DecState) (e : EndMarker) (k : Len) (s : State) :
    (putDecode d e k s).dstate = dstateWord (decStateBits d) := rfl
@[simp] theorem putDecode_dend (d : DecState) (e : EndMarker) (k : Len) (s : State) :
    (putDecode d e k s).dend = dendWord e := rfl
@[simp] theorem putDecode_consumed (d : DecState) (e : EndMarker) (k : Len) (s : State) :
    (putDecode d e k s).consumed = k := rfl
@[simp] theorem putDecode_nameLen (d : DecState) (e : EndMarker) (k : Len) (s : State) :
    (putDecode d e k s).nameLen = s.nameLen := rfl
@[simp] theorem putDecode_psize (d : DecState) (e : EndMarker) (k : Len) (s : State) :
    (putDecode d e k s).psize = s.psize := rfl
@[simp] theorem putDecode_part (d : DecState) (e : EndMarker) (k : Len) (s : State) :
    (putDecode d e k s).part = s.part := rfl
@[simp] theorem putDecode_apart (d : DecState) (e : EndMarker) (k : Len) (s : State) :
    (putDecode d e k s).apart = s.apart := rfl
@[simp] theorem putDecode_atotal (d : DecState) (e : EndMarker) (k : Len) (s : State) :
    (putDecode d e k s).atotal = s.atotal := rfl
@[simp] theorem putDecode_fcrc (d : DecState) (e : EndMarker) (k : Len) (s : State) :
    (putDecode d e k s).fcrc = s.fcrc := rfl
@[simp] theorem putDecode_pcrc (d : DecState) (e : EndMarker) (k : Len) (s : State) :
    (putDecode d e k s).pcrc = s.pcrc := rfl
@[simp] theorem putDecode_maxlen (d : DecState) (e : EndMarker) (k : Len) (s : State) :
    (putDecode d e k s).maxlen = s.maxlen := rfl
@[simp] theorem putDecode_ibuf (d : DecState) (e : EndMarker) (k : Len) (s : State) :
    (putDecode d e k s).ibuf = s.ibuf := rfl
@[simp] theorem putDecode_obuf (d : DecState) (e : EndMarker) (k : Len) (s : State) :
    (putDecode d e k s).obuf = s.obuf := rfl
@[simp] theorem putDecode_nbuf (d : DecState) (e : EndMarker) (k : Len) (s : State) :
    (putDecode d e k s).nbuf = s.nbuf := rfl
@[simp] theorem putDecode_script (d : DecState) (e : EndMarker) (k : Len) (s : State) :
    (putDecode d e k s).script = s.script := rfl
@[simp] theorem putDecode_replies (d : DecState) (e : EndMarker) (k : Len) (s : State) :
    (putDecode d e k s).replies = s.replies := rfl

/-! The registers a framer command writes (R178, R179). -/

@[simp] theorem putArticle_cfg (art : Article) (s : State) : (putArticle art s).cfg = s.cfg := rfl
@[simp] theorem putArticle_status (art : Article) (s : State) : (putArticle art s).status = s.status := rfl
@[simp] theorem putArticle_a (art : Article) (s : State) : (putArticle art s).a = s.a := rfl
@[simp] theorem putArticle_b (art : Article) (s : State) : (putArticle art s).b = s.b := rfl
@[simp] theorem putArticle_n (art : Article) (s : State) : (putArticle art s).n = s.n := rfl
@[simp] theorem putArticle_r (art : Article) (s : State) : (putArticle art s).r = s.r := rfl
@[simp] theorem putArticle_inLen (art : Article) (s : State) : (putArticle art s).inLen = s.inLen := rfl
@[simp] theorem putArticle_outLen (art : Article) (s : State) : (putArticle art s).outLen = s.outLen := rfl
@[simp] theorem putArticle_line (art : Article) (s : State) : (putArticle art s).line = s.line := rfl
@[simp] theorem putArticle_col (art : Article) (s : State) : (putArticle art s).col = s.col := rfl
@[simp] theorem putArticle_dstate (art : Article) (s : State) : (putArticle art s).dstate = s.dstate := rfl
@[simp] theorem putArticle_dend (art : Article) (s : State) : (putArticle art s).dend = s.dend := rfl
@[simp] theorem putArticle_consumed (art : Article) (s : State) : (putArticle art s).consumed = s.consumed := rfl
@[simp] theorem putArticle_nameLen (art : Article) (s : State) : (putArticle art s).nameLen = s.nameLen := rfl
@[simp] theorem putArticle_psize (art : Article) (s : State) : (putArticle art s).psize = s.psize := rfl
@[simp] theorem putArticle_part (art : Article) (s : State) : (putArticle art s).part = s.part := rfl
@[simp] theorem putArticle_apart (art : Article) (s : State) :
    (putArticle art s).apart = BitVec.ofNat 64 art.partNumber := rfl
@[simp] theorem putArticle_atotal (art : Article) (s : State) :
    (putArticle art s).atotal = BitVec.ofNat 64 art.totalParts := rfl
@[simp] theorem putArticle_fcrc (art : Article) (s : State) : (putArticle art s).fcrc = art.crc32 := rfl
@[simp] theorem putArticle_pcrc (art : Article) (s : State) : (putArticle art s).pcrc = art.partCrc32 := rfl
@[simp] theorem putArticle_maxlen (art : Article) (s : State) : (putArticle art s).maxlen = s.maxlen := rfl
@[simp] theorem putArticle_ibuf (art : Article) (s : State) : (putArticle art s).ibuf = s.ibuf := rfl
@[simp] theorem putArticle_obuf (art : Article) (s : State) : (putArticle art s).obuf = s.obuf := rfl
@[simp] theorem putArticle_nbuf (art : Article) (s : State) : (putArticle art s).nbuf = s.nbuf := rfl
@[simp] theorem putArticle_script (art : Article) (s : State) : (putArticle art s).script = s.script := rfl
@[simp] theorem putArticle_replies (art : Article) (s : State) : (putArticle art s).replies = s.replies := rfl

/-! The host has taken an action. -/

@[simp] theorem takeAction_cfg (rest : List HostAction) (s : State) : (takeAction rest s).cfg = s.cfg := rfl
@[simp] theorem takeAction_status (rest : List HostAction) (s : State) : (takeAction rest s).status = s.status := rfl
@[simp] theorem takeAction_a (rest : List HostAction) (s : State) : (takeAction rest s).a = s.a := rfl
@[simp] theorem takeAction_b (rest : List HostAction) (s : State) : (takeAction rest s).b = s.b := rfl
@[simp] theorem takeAction_n (rest : List HostAction) (s : State) : (takeAction rest s).n = s.n := rfl
@[simp] theorem takeAction_r (rest : List HostAction) (s : State) : (takeAction rest s).r = s.r := rfl
@[simp] theorem takeAction_inLen (rest : List HostAction) (s : State) : (takeAction rest s).inLen = s.inLen := rfl
@[simp] theorem takeAction_outLen (rest : List HostAction) (s : State) : (takeAction rest s).outLen = s.outLen := rfl
@[simp] theorem takeAction_line (rest : List HostAction) (s : State) : (takeAction rest s).line = s.line := rfl
@[simp] theorem takeAction_col (rest : List HostAction) (s : State) : (takeAction rest s).col = s.col := rfl
@[simp] theorem takeAction_dstate (rest : List HostAction) (s : State) : (takeAction rest s).dstate = s.dstate := rfl
@[simp] theorem takeAction_dend (rest : List HostAction) (s : State) : (takeAction rest s).dend = s.dend := rfl
@[simp] theorem takeAction_consumed (rest : List HostAction) (s : State) :
    (takeAction rest s).consumed = s.consumed := rfl
@[simp] theorem takeAction_nameLen (rest : List HostAction) (s : State) :
    (takeAction rest s).nameLen = s.nameLen := rfl
@[simp] theorem takeAction_psize (rest : List HostAction) (s : State) : (takeAction rest s).psize = s.psize := rfl
@[simp] theorem takeAction_part (rest : List HostAction) (s : State) : (takeAction rest s).part = s.part := rfl
@[simp] theorem takeAction_apart (rest : List HostAction) (s : State) : (takeAction rest s).apart = s.apart := rfl
@[simp] theorem takeAction_atotal (rest : List HostAction) (s : State) : (takeAction rest s).atotal = s.atotal := rfl
@[simp] theorem takeAction_fcrc (rest : List HostAction) (s : State) : (takeAction rest s).fcrc = s.fcrc := rfl
@[simp] theorem takeAction_pcrc (rest : List HostAction) (s : State) : (takeAction rest s).pcrc = s.pcrc := rfl
@[simp] theorem takeAction_maxlen (rest : List HostAction) (s : State) : (takeAction rest s).maxlen = s.maxlen := rfl
@[simp] theorem takeAction_ibuf (rest : List HostAction) (s : State) : (takeAction rest s).ibuf = s.ibuf := rfl
@[simp] theorem takeAction_obuf (rest : List HostAction) (s : State) : (takeAction rest s).obuf = s.obuf := rfl
@[simp] theorem takeAction_nbuf (rest : List HostAction) (s : State) : (takeAction rest s).nbuf = s.nbuf := rfl
@[simp] theorem takeAction_script (rest : List HostAction) (s : State) : (takeAction rest s).script = rest := rfl
@[simp] theorem takeAction_replies (rest : List HostAction) (s : State) :
    (takeAction rest s).replies = s.replies := rfl

/-! The host presents a command word next. -/

@[simp] theorem presentWord_cfg (w : Word) (s : State) : (presentWord w s).cfg = s.cfg := rfl
@[simp] theorem presentWord_status (w : Word) (s : State) : (presentWord w s).status = s.status := rfl
@[simp] theorem presentWord_a (w : Word) (s : State) : (presentWord w s).a = s.a := rfl
@[simp] theorem presentWord_b (w : Word) (s : State) : (presentWord w s).b = s.b := rfl
@[simp] theorem presentWord_n (w : Word) (s : State) : (presentWord w s).n = s.n := rfl
@[simp] theorem presentWord_r (w : Word) (s : State) : (presentWord w s).r = s.r := rfl
@[simp] theorem presentWord_inLen (w : Word) (s : State) : (presentWord w s).inLen = s.inLen := rfl
@[simp] theorem presentWord_outLen (w : Word) (s : State) : (presentWord w s).outLen = s.outLen := rfl
@[simp] theorem presentWord_line (w : Word) (s : State) : (presentWord w s).line = s.line := rfl
@[simp] theorem presentWord_col (w : Word) (s : State) : (presentWord w s).col = s.col := rfl
@[simp] theorem presentWord_dstate (w : Word) (s : State) : (presentWord w s).dstate = s.dstate := rfl
@[simp] theorem presentWord_dend (w : Word) (s : State) : (presentWord w s).dend = s.dend := rfl
@[simp] theorem presentWord_consumed (w : Word) (s : State) : (presentWord w s).consumed = s.consumed := rfl
@[simp] theorem presentWord_nameLen (w : Word) (s : State) : (presentWord w s).nameLen = s.nameLen := rfl
@[simp] theorem presentWord_psize (w : Word) (s : State) : (presentWord w s).psize = s.psize := rfl
@[simp] theorem presentWord_part (w : Word) (s : State) : (presentWord w s).part = s.part := rfl
@[simp] theorem presentWord_apart (w : Word) (s : State) : (presentWord w s).apart = s.apart := rfl
@[simp] theorem presentWord_atotal (w : Word) (s : State) : (presentWord w s).atotal = s.atotal := rfl
@[simp] theorem presentWord_fcrc (w : Word) (s : State) : (presentWord w s).fcrc = s.fcrc := rfl
@[simp] theorem presentWord_pcrc (w : Word) (s : State) : (presentWord w s).pcrc = s.pcrc := rfl
@[simp] theorem presentWord_maxlen (w : Word) (s : State) : (presentWord w s).maxlen = s.maxlen := rfl
@[simp] theorem presentWord_ibuf (w : Word) (s : State) : (presentWord w s).ibuf = s.ibuf := rfl
@[simp] theorem presentWord_obuf (w : Word) (s : State) : (presentWord w s).obuf = s.obuf := rfl
@[simp] theorem presentWord_nbuf (w : Word) (s : State) : (presentWord w s).nbuf = s.nbuf := rfl
@[simp] theorem presentWord_script (w : Word) (s : State) : (presentWord w s).script = .issue w :: s.script := rfl
@[simp] theorem presentWord_replies (w : Word) (s : State) : (presentWord w s).replies = s.replies := rfl

end Sys2Proof.Machine
end

