-- ==== Sys2Proof/Laws/Ops.lean ====
section
/-! SUPPORT. For each shared operation, one lemma that says everything it can answer. Later proofs cite these and do not unfold
the operation. -/

namespace Sys2Proof.Machine

/-! Checks and reads -/

theorem require_of_true {p : Prop} [Decidable p] (h : p) (c : FaultCode) (s : State) (k : Result) :
    require p c s k = k := if_pos h

theorem require_of_false {p : Prop} [Decidable p] (h : ¬p) (c : FaultCode) (s : State) (k : Result) :
    require p c s k = .next (raise c s) := if_neg h

theorem require_next {p : Prop} [Decidable p] {c : FaultCode} {s t : State} {k : Result}
    (h : require p c s k = .next t) : (p ∧ k = .next t) ∨ (¬p ∧ t = raise c s) := by
  unfold require at h
  split at h
  · exact .inl ⟨‹p›, h⟩
  · exact .inr ⟨‹¬p›, by cases h; rfl⟩

theorem require_refused {p : Prop} [Decidable p] {c : FaultCode} {s : State} {k : Result} {e : Refusal}
    (h : require p c s k = .refused e) : p ∧ k = .refused e := by
  unfold require at h
  split at h
  · exact ⟨‹p›, h⟩
  · cases h

@[simp] theorem withBytes_some (b : Config.Buf) (d : List Byte) (k : List Byte → Result) :
    withBytes b (some d) k = k d := rfl

@[simp] theorem withBytes_none (b : Config.Buf) (k : List Byte → Result) :
    withBytes b none k = .refused (.unwrittenByte b) := rfl

theorem withBytes_next {b : Config.Buf} {o : Option (List Byte)} {k : List Byte → Result} {t : State}
    (h : withBytes b o k = .next t) : ∃ d, o = some d ∧ k d = .next t := by
  cases o with
  | none => cases h
  | some d => exact ⟨d, rfl, h⟩

/-! Ends of commands -/

theorem deliver_of_fits {s : State} {out : List Byte} (h : out.length ≤ s.cfg.obufSize) (s' : State) :
    deliver s out s' = .next (complete (putOutput out s')) := require_of_true h ..

theorem deliver_of_too_long {s : State} {out : List Byte} (h : s.cfg.obufSize < out.length) (s' : State) :
    deliver s out s' = .next (raise .eOvf s) := require_of_false (Nat.not_le.2 h) ..

theorem deliver_next {s s' t : State} {out : List Byte} (h : deliver s out s' = .next t) :
    (out.length ≤ s.cfg.obufSize ∧ t = complete (putOutput out s')) ∨
      (s.cfg.obufSize < out.length ∧ t = raise .eOvf s) := by
  rcases require_next h with ⟨hp, hk⟩ | ⟨hp, hk⟩
  · exact .inl ⟨hp, by cases hk; rfl⟩
  · exact .inr ⟨Nat.not_le.1 hp, hk⟩

theorem putR_next {v : Word} {s t : State} (h : putR v s = .next t) : t = complete { s with r := v } := by
  cases h; rfl

theorem withInState_next {s t : State} {k : DecState → Result} (h : withInState s k = .next t) :
    (∃ s0, inState s = some s0 ∧ k s0 = .next t) ∨ (inState s = none ∧ t = raise .eState s) := by
  unfold withInState at h
  split at h
  · rename_i s0 hs
    exact .inl ⟨s0, hs, h⟩
  · rename_i hs
    exact .inr ⟨hs, by cases h; rfl⟩

theorem withFramerOperands_next {s t : State} {k : List Byte → List Byte → Result}
    (h : withFramerOperands s k = .next t) :
    (∃ data name, ChunkIs s data ∧ NameIs s name ∧ 1 ≤ s.line.toNat ∧ k data name = .next t) ∨
      t = raise .eRange s := by
  unfold withFramerOperands at h
  rcases require_next h with ⟨h1, h⟩ | ⟨-, h⟩
  · rcases require_next h with ⟨h2, h⟩ | ⟨-, h⟩
    · rcases require_next h with ⟨h3, h⟩ | ⟨-, h⟩
      · obtain ⟨data, hd, h⟩ := withBytes_next h
        obtain ⟨name, hn, h⟩ := withBytes_next h
        exact .inl ⟨data, name, ⟨h1, hd⟩, ⟨h2, hn⟩, h3, h⟩
      · exact .inr h
    · exact .inr h
  · exact .inr h

/-! Fields of the words -/

@[simp] theorem statusCode_statusWord (y : Bool) (c : BitVec 8) : statusCode (statusWord y c) = c := by
  refine BitVec.eq_of_getLsbD_eq fun i hi => ?_
  rw [statusCode, statusWord, BitVec.getLsbD_extractLsb', Nat.zero_add, BitVec.getLsbD_append]
  simp [hi]

@[simp] theorem statusSticky_statusWord (y : Bool) (c : BitVec 8) : statusSticky (statusWord y c) = y := by
  rw [statusSticky, statusWord, BitVec.getLsbD_append, BitVec.getLsbD_append]
  cases y <;> rfl

@[simp] theorem statusCode_raise (c : FaultCode) (s : State) : statusCode (raise c s).status = codeNumber c := by simp

@[simp] theorem statusSticky_raise (c : FaultCode) (s : State) : statusSticky (raise c s).status = true := by simp

@[simp] theorem statusCode_complete (s : State) : statusCode (complete s).status = 0 := by simp

@[simp] theorem statusSticky_complete (s : State) :
    statusSticky (complete s).status = statusSticky s.status := by simp

@[simp] theorem decStateOfBits_decStateBits (d : DecState) : decStateOfBits (decStateBits d) = some d := by
  cases d <;> decide

@[simp] theorem dstateField_dstateWord (v : BitVec 3) : dstateField (dstateWord v) = v := by
  refine BitVec.eq_of_getLsbD_eq fun i hi => ?_
  rw [dstateField, dstateWord, BitVec.getLsbD_extractLsb', Nat.zero_add, BitVec.getLsbD_append]
  simp [hi]

theorem codeNumber_ne_zero (c : FaultCode) : codeNumber c ≠ 0 := by cases c <;> decide

end Sys2Proof.Machine
end

