-- ==== Sys2Proof/Laws/Commands.lean ====
section
/-! SUPPORT. Inversion, one lemma per command: the next states the command can answer. Frames, invariants and whole-machine
rules are read off these, without unfolding a meaning again. -/

namespace Sys2Proof.Machine

theorem execCrcUpd_next {s t : State} (h : execCrcUpd s = .next t) :
    (∃ data, ChunkIs s data ∧ t = complete { s with r := crc data s.a }) ∨ t = raise .eRange s := by
  rcases require_next h with ⟨h1, h⟩ | ⟨-, h⟩
  · obtain ⟨data, hd, h⟩ := withBytes_next h
    exact .inl ⟨data, ⟨h1, hd⟩, putR_next h⟩
  · exact .inr h

theorem execCrcComb_next {s t : State} (h : execCrcComb s = .next t) :
    t = complete { s with r := combine s.a s.b s.n.toNat } := putR_next h

theorem execCrcZeros_next {s t : State} (h : execCrcZeros s = .next t) :
    t = complete { s with r := zeros s.a s.n.toNat } := putR_next h

theorem execCrcUnzero_next {s t : State} (h : execCrcUnzero s = .next t) :
    t = complete { s with r := unzero s.a s.n.toNat } := putR_next h

theorem execCrcMul_next {s t : State} (h : execCrcMul s = .next t) :
    t = complete { s with r := mul s.a s.b } := putR_next h

theorem execCrcPow2_next {s t : State} (h : execCrcPow2 s = .next t) :
    t = complete { s with r := pow2 s.n.toNat } := putR_next h

theorem execCrcPow256_next {s t : State} (h : execCrcPow256 s = .next t) :
    t = complete { s with r := pow256 s.n.toNat } := putR_next h

theorem execEncBlk_next {isEnd : Bool} {s t : State} (h : execEncBlk isEnd s = .next t) :
    (∃ data, ChunkIs s data ∧ s.col.toNat < s.line.toNat ∧
        (encodeBytes data s.line.toNat s.col.toNat isEnd).1.length ≤ s.cfg.obufSize ∧
        t = complete (putOutput (encodeBytes data s.line.toNat s.col.toNat isEnd).1
          { s with col := BitVec.ofNat 64 (encodeBytes data s.line.toNat s.col.toNat isEnd).2 })) ∨
      t = raise .eRange s ∨ t = raise .eOvf s := by
  rcases require_next h with ⟨h1, h⟩ | ⟨-, h⟩
  · rcases require_next h with ⟨h2, h⟩ | ⟨-, h⟩
    · rcases require_next h with ⟨h3, h⟩ | ⟨-, h⟩
      · obtain ⟨data, hd, h⟩ := withBytes_next h
        rcases deliver_next h with ⟨hl, h⟩ | ⟨-, h⟩
        · exact .inl ⟨data, ⟨h1, hd⟩, h3, hl, h⟩
        · exact .inr (.inr h)
      · exact .inr (.inl h)
    · exact .inr (.inl h)
  · exact .inr (.inl h)

theorem execEncMaxlen_next {s t : State} (h : execEncMaxlen s = .next t) :
    (1 ≤ s.line.toNat ∧ encMaxLen s.cfg.maxLen s.n.toNat s.line.toNat < 2 ^ 64 ∧
        t = complete { s with maxlen := BitVec.ofNat 64 (encMaxLen s.cfg.maxLen s.n.toNat s.line.toNat) }) ∨
      t = raise .eRange s := by
  rcases require_next h with ⟨h1, h⟩ | ⟨-, h⟩
  · rcases require_next h with ⟨h2, h⟩ | ⟨-, h⟩
    · exact .inl ⟨h1, h2, by cases h; rfl⟩
    · exact .inr h
  · exact .inr h

theorem execDecBlk_next {isRaw : Bool} {s t : State} (h : execDecBlk isRaw s = .next t) :
    (∃ data s0, ChunkIs s data ∧ inState s = some s0 ∧ (decodeBlock data isRaw s0).1.length ≤ s.cfg.obufSize ∧
        t = complete (putOutput (decodeBlock data isRaw s0).1
          (putDecode (decodeBlock data isRaw s0).2 .none s.inLen s))) ∨
      t = raise .eRange s ∨ t = raise .eState s ∨ t = raise .eOvf s := by
  rcases require_next h with ⟨h1, h⟩ | ⟨-, h⟩
  · rcases withInState_next h with ⟨s0, hs, h⟩ | ⟨-, h⟩
    · obtain ⟨data, hd, h⟩ := withBytes_next h
      rcases deliver_next h with ⟨hl, h⟩ | ⟨-, h⟩
      · exact .inl ⟨data, s0, ⟨h1, hd⟩, hs, hl, h⟩
      · exact .inr (.inr (.inr h))
    · exact .inr (.inr (.inl h))
  · exact .inr (.inl h)

theorem execDecInc_next {s t : State} (h : execDecInc s = .next t) :
    (∃ q s0, s.inLen.toNat ≤ s.cfg.ibufSize ∧ inState s = some s0 ∧ incResult s s0 = some q ∧
        q.out.length ≤ s.cfg.obufSize ∧
        t = complete (putOutput q.out (putDecode q.state q.marker (BitVec.ofNat 64 q.consumed) s))) ∨
      t = raise .eRange s ∨ t = raise .eState s ∨ t = raise .eOvf s := by
  rcases require_next h with ⟨h1, h⟩ | ⟨-, h⟩
  · rcases withInState_next h with ⟨s0, hs, h⟩ | ⟨-, h⟩
    · cases hq : incResult s s0 with
      | none => simp [hq] at h
      | some q =>
        rw [hq] at h
        rcases deliver_next h with ⟨hl, h⟩ | ⟨-, h⟩
        · exact .inl ⟨q, s0, h1, hs, hq, hl, h⟩
        · exact .inr (.inr (.inr h))
    · exact .inr (.inr (.inl h))
  · exact .inr (.inl h)

theorem execFrmSingle_next {s t : State} (h : execFrmSingle s = .next t) :
    (∃ data name, ChunkIs s data ∧ NameIs s name ∧ validArgs data name = true ∧
        (singleArticle data name s.line.toNat).text.length ≤ s.cfg.obufSize ∧
        t = complete (putOutput (singleArticle data name s.line.toNat).text
          (putArticle (singleArticle data name s.line.toNat) s))) ∨
      t = raise .eRange s ∨ t = raise .eArg s ∨ t = raise .eOvf s := by
  rcases withFramerOperands_next h with ⟨data, name, hd, hn, -, h⟩ | h
  · rcases require_next h with ⟨hv, h⟩ | ⟨-, h⟩
    · rcases deliver_next h with ⟨hl, h⟩ | ⟨-, h⟩
      · exact .inl ⟨data, name, hd, hn, hv, hl, h⟩
      · exact .inr (.inr (.inr h))
    · exact .inr (.inr (.inl h))
  · exact .inr (.inl h)

theorem execFrmMulti_next {s t : State} (h : execFrmMulti s = .next t) :
    (∃ data name art, ChunkIs s data ∧ NameIs s name ∧ validArgs data name = true ∧ 0 < signedPsize s ∧
        selectedArticle s data name = some art ∧ art.text.length ≤ s.cfg.obufSize ∧
        t = complete (putOutput art.text (putArticle art s))) ∨
      t = raise .eRange s ∨ t = raise .eArg s ∨ t = raise .eOvf s := by
  rcases withFramerOperands_next h with ⟨data, name, hd, hn, -, h⟩ | h
  · rcases require_next h with ⟨hv, h⟩ | ⟨-, h⟩
    · cases ha : selectedArticle s data name with
      | none =>
        rw [ha] at h
        exact .inr (.inl (by cases h; rfl))
      | some art =>
        rw [ha] at h
        rcases deliver_next h with ⟨hl, h⟩ | ⟨-, h⟩
        · exact .inl ⟨data, name, art, hd, hn, hv.1, hv.2, ha, hl, h⟩
        · exact .inr (.inr (.inr h))
    · exact .inr (.inr (.inl h))
  · exact .inr (.inl h)

end Sys2Proof.Machine
end

