-- ==== Sys2Proof/Laws/HostPort.lean ====
section
/-! SUPPORT. Inversion for the host port: the next states an action, an issued word and a step can answer. Invariants of a
step are read off these. -/

namespace Sys2Proof.Machine

open Sys2Proof.Config (Buf)

theorem hostRegWrite_next {n : Nat} {v : Len} {s t : State} (h : hostRegWrite n v s = .next t) :
    ∃ reg, regOfNumber n = some reg ∧ t = writeReg s v reg := by
  unfold hostRegWrite at h
  split at h
  · exact ⟨_, ‹_›, by cases h; rfl⟩
  · cases h

theorem hostRegRead_next {n : Nat} {s t : State} (h : hostRegRead n s = .next t) :
    ∃ reg, regOfNumber n = some reg ∧ t = { s with replies := .reg (readReg s reg) :: s.replies } := by
  unfold hostRegRead at h
  split at h
  · exact ⟨_, ‹_›, by cases h; rfl⟩
  · cases h

theorem hostBufWrite_next {b : Buf} {i : Nat} {v : Byte} {s t : State} (h : hostBufWrite b i v s = .next t) :
    (b = .ibuf ∧ i < s.cfg.ibufSize ∧ t = { s with ibuf := writeByte s.ibuf i v }) ∨
      (b = .nbuf ∧ i < s.cfg.nbufSize ∧ t = { s with nbuf := writeByte s.nbuf i v }) := by
  cases b <;> simp only [hostBufWrite] at h
  · split at h
    · exact .inl ⟨rfl, ‹_›, by cases h; rfl⟩
    · cases h
  · cases h
  · split at h
    · exact .inr ⟨rfl, ‹_›, by cases h; rfl⟩
    · cases h

theorem hostBufRead_next {b : Buf} {i : Nat} {s t : State} (h : hostBufRead b i s = .next t) :
    ∃ v, i < s.cfg.size b ∧ readByte (buffer s b) i = some v ∧ t = { s with replies := .byte v :: s.replies } := by
  unfold hostBufRead at h
  split at h
  · split at h
    · exact ⟨_, ‹_›, ‹_›, by cases h; rfl⟩
    · cases h
  · cases h

theorem issue_next {w : Word} {s t : State} (h : issue w s = .next t) :
    (∃ e, decode w = .error e ∧ t = raise .eCmd s) ∨ ∃ i, decode w = .ok i ∧ exec i s = .next t := by
  unfold issue at h
  split at h
  · exact .inl ⟨_, ‹_›, by cases h; rfl⟩
  · exact .inr ⟨_, ‹_›, h⟩

theorem step_next {s t : State} (h : step s = .next t) :
    (s.script = [] ∧ t = s) ∨
      ∃ act rest, s.script = act :: rest ∧ perform act (takeAction rest s) = .next t := by
  unfold step at h
  split at h
  · exact .inl ⟨‹_›, by cases h; rfl⟩
  · exact .inr ⟨_, _, ‹_›, h⟩

end Sys2Proof.Machine
end

