-- ==== Sys2Proof/Laws/Memory.lean ====
section
/-! SUPPORT. The laws of a buffer's bytes: a read after a write, the canonical form, and what a run of bytes reads. -/

namespace Sys2Proof.Machine

/-! Reading after writing -/

@[simp] theorem readByte_nil (i : Nat) : readByte [] i = none := rfl

theorem readByte_cons (j : Nat) (v : Byte) (m : Memory) (i : Nat) :
    readByte ((j, v) :: m) i = if j = i then some v else readByte m i := rfl

theorem readByte_eq_none_of_lt {m : Memory} {i : Nat} (h : ∀ c ∈ m, i < c.1) : readByte m i = none := by
  induction m with
  | nil => rfl
  | cons c m ih =>
    obtain ⟨j, v⟩ := c
    have hj : i < j := h (j, v) (by simp)
    rw [readByte_cons, if_neg (by omega), ih fun c hc => h c (by simp [hc])]

@[simp] theorem readByte_writeByte_same (m : Memory) (i : Nat) (v : Byte) : readByte (writeByte m i v) i = some v := by
  induction m with
  | nil => simp [writeByte, readByte]
  | cons c m ih =>
    obtain ⟨j, w⟩ := c
    simp only [writeByte]
    split
    · simp [readByte]
    · split
      · simp [readByte]
      · rw [readByte_cons, if_neg (by omega), ih]

theorem readByte_writeByte_other (m : Memory) {i k : Nat} (v : Byte) (h : k ≠ i) :
    readByte (writeByte m i v) k = readByte m k := by
  induction m with
  | nil => simp [writeByte, readByte, Ne.symm h]
  | cons c m ih =>
    obtain ⟨j, w⟩ := c
    simp only [writeByte]
    split
    · rw [readByte_cons, if_neg (Ne.symm h)]
    · split
      · rw [readByte_cons, readByte_cons, if_neg (Ne.symm h), if_neg (by omega)]
      · rw [readByte_cons, readByte_cons, ih]

/-! The canonical form -/

theorem mem_writeByte {m : Memory} {i : Nat} {v : Byte} {c : Host.Cell} (h : c ∈ writeByte m i v) :
    c = (i, v) ∨ c ∈ m := by
  induction m with
  | nil => simpa [writeByte] using h
  | cons d m ih =>
    obtain ⟨j, w⟩ := d
    simp only [writeByte] at h
    split at h
    · simpa using h
    · split at h
      · rcases List.mem_cons.1 h with h | h <;> simp [h]
      · rcases List.mem_cons.1 h with h | h
        · simp [h]
        · rcases ih h with h | h <;> simp [h]

theorem wf_nil : Memory.wf [] := List.Pairwise.nil

theorem wf_writeByte {m : Memory} (h : m.wf) (i : Nat) (v : Byte) : Memory.wf (writeByte m i v) := by
  induction m with
  | nil => simp [writeByte]
  | cons c m ih =>
    obtain ⟨j, w⟩ := c
    have hm := List.pairwise_cons.1 h
    simp only [writeByte]
    split
    · rename_i hlt
      refine List.pairwise_cons.2 ⟨fun d hd => ?_, h⟩
      rcases List.mem_cons.1 hd with rfl | hd
      · exact hlt
      · exact Nat.lt_trans hlt (hm.1 d hd)
    · split
      · rename_i heq
        subst heq
        exact List.pairwise_cons.2 ⟨hm.1, hm.2⟩
      · refine List.pairwise_cons.2 ⟨fun d hd => ?_, ih hm.2⟩
        rcases mem_writeByte hd with rfl | hd
        · simp only
          omega
        · exact hm.1 d hd

theorem within_writeByte {m : Memory} {size i : Nat} (h : m.within size) (hi : i < size) (v : Byte) :
    Memory.within (writeByte m i v) size := by
  refine ⟨wf_writeByte h.1 i v, fun c hc => ?_⟩
  rcases mem_writeByte hc with rfl | hc
  · exact hi
  · exact h.2 c hc

theorem mem_bytesFrom {out : List Byte} {i : Nat} {c : Host.Cell} (h : c ∈ bytesFrom i out) :
    i ≤ c.1 ∧ c.1 < i + out.length := by
  induction out generalizing i with
  | nil => simp [bytesFrom] at h
  | cons v out ih =>
    simp only [bytesFrom, List.mem_cons] at h
    rcases h with rfl | h
    · simp
    · have := ih h
      simp only [List.length_cons]
      omega

theorem wf_bytesFrom (i : Nat) (out : List Byte) : Memory.wf (bytesFrom i out) := by
  induction out generalizing i with
  | nil => exact wf_nil
  | cons v out ih =>
    refine List.pairwise_cons.2 ⟨fun d hd => ?_, ih (i + 1)⟩
    have := mem_bytesFrom hd
    simp only
    omega

theorem within_bytesFrom {out : List Byte} {size : Nat} (h : out.length ≤ size) :
    Memory.within (bytesFrom 0 out) size := by
  refine ⟨wf_bytesFrom 0 out, fun c hc => ?_⟩
  have := mem_bytesFrom hc
  omega

/-- Every buffer has the canonical form at reset. -/
theorem wf_reset (b : Config.Buf) : Memory.wf (buffer State.reset b) := by cases b <;> exact wf_nil

/-! Runs of bytes -/

theorem readByte_bytesFrom (i : Nat) (out : List Byte) (k : Nat) :
    readByte (bytesFrom i out) k = if i ≤ k then out[k - i]? else none := by
  induction out generalizing i with
  | nil => simp [bytesFrom]
  | cons v out ih =>
    rw [bytesFrom, readByte_cons, ih]
    rcases Nat.lt_trichotomy i k with h | rfl | h
    · obtain ⟨d, rfl⟩ := Nat.exists_eq_add_of_lt h
      rw [if_neg (by omega), if_pos (by omega), if_pos (by omega)]
      have : i + d + 1 - i = (i + d + 1 - (i + 1)) + 1 := by omega
      rw [this, List.getElem?_cons_succ]
    · simp
    · rw [if_neg (by omega), if_neg (by omega), if_neg (by omega)]

theorem runFrom_length_le (i n : Nat) (m : Memory) : (runFrom i n m).length ≤ n := by
  induction n generalizing i m with
  | zero => simp [runFrom]
  | succ n ih =>
    cases m with
    | nil => simp [runFrom]
    | cons c m =>
      simp only [runFrom]
      split
      · simpa using ih (i + 1) m
      · simp

/-- In a canonical buffer whose indices are `i` and up, a run reads what `readByte` reads. -/
theorem runFrom_getElem? {i n : Nat} {m : Memory} (h : m.wf) (hi : ∀ c ∈ m, i ≤ c.1) (k : Nat)
    (hk : k < (runFrom i n m).length) : (runFrom i n m)[k]? = readByte m (i + k) := by
  induction n generalizing i m k with
  | zero => simp [runFrom] at hk
  | succ n ih =>
    cases m with
    | nil => simp [runFrom] at hk
    | cons c m =>
      obtain ⟨j, v⟩ := c
      have hm := List.pairwise_cons.1 h
      simp only [runFrom] at hk ⊢
      split at hk
      · rename_i hj
        subst hj
        rw [if_pos rfl]
        cases k with
        | zero => simp [readByte]
        | succ k =>
          have := ih hm.2 (fun c hc => Nat.succ_le_of_lt (hm.1 c hc)) k (by simpa using hk)
          rw [List.getElem?_cons_succ, this, readByte_cons, if_neg (by omega)]
          congr 1
          omega
      · simp at hk

/-- A run stops short only at a byte that holds no value. -/
theorem readByte_after_runFrom {i n : Nat} {m : Memory} (h : m.wf) (hi : ∀ c ∈ m, i ≤ c.1)
    (hlt : (runFrom i n m).length < n) : readByte m (i + (runFrom i n m).length) = none := by
  induction n generalizing i m with
  | zero => omega
  | succ n ih =>
    cases m with
    | nil => simp
    | cons c m =>
      obtain ⟨j, v⟩ := c
      have hm := List.pairwise_cons.1 h
      simp only [runFrom] at hlt ⊢
      split at hlt
      · rename_i hj
        subst hj
        rw [if_pos rfl]
        simp only [List.length_cons] at hlt ⊢
        have := ih (i := j + 1) hm.2 (fun c hc => Nat.succ_le_of_lt (hm.1 c hc)) (by omega)
        rw [readByte_cons, if_neg (by omega), ← this]
        congr 1
        omega
      · rename_i hj
        rw [if_neg hj]
        refine readByte_eq_none_of_lt fun c hc => ?_
        have hij := hi (j, v) (by simp)
        rcases List.mem_cons.1 hc with rfl | hc
        · simp only [List.length_nil]
          omega
        · have := hm.1 c hc
          simp only [List.length_nil] at this ⊢
          omega

theorem runFrom_bytesFrom (i : Nat) (out : List Byte) : runFrom i out.length (bytesFrom i out) = out := by
  induction out generalizing i with
  | nil => rfl
  | cons v out ih => simp [bytesFrom, runFrom, ih]

/-- What a command has put into a buffer reads back whole. -/
theorem readBytes_bytesFrom (out : List Byte) : readBytes (bytesFrom 0 out) out.length = some out := by
  simp [readBytes, writtenPrefix, runFrom_bytesFrom]

theorem readBytes_eq_some {m : Memory} {n : Nat} {d : List Byte} :
    readBytes m n = some d ↔ writtenPrefix m n = d ∧ d.length = n := by
  unfold readBytes
  constructor
  · intro h
    split at h
    · cases h
      exact ⟨rfl, ‹_›⟩
    · cases h
  · rintro ⟨rfl, h⟩
    rw [if_pos h]

@[simp] theorem readBytes_zero (m : Memory) : readBytes m 0 = some [] := by
  cases m <;> rfl

end Sys2Proof.Machine
end

