-- ==== Sys2Proof/Laws/PerInstr.lean ====
section
/-! SUPPORT. Facts about each instruction as syntax, one lemma per constructor. -/

namespace Sys2Proof.Laws.EncodedWord

/-- The word of an instruction is one of the legal words of the opcode map (R62), its reserved bits are zero, and its fields
are the instruction's (R61). -/
def Statement (i : Instr) : Prop :=
  legalWord (encode i) = true ∧ rsvField (encode i) = 0 ∧ opcField (encode i) = opcodeOf i ∧
    flagField (encode i) = flagOf i

theorem crcUpd : Statement .crcUpd := by unfold Statement; decide
theorem crcComb : Statement .crcComb := by unfold Statement; decide
theorem crcZeros : Statement .crcZeros := by unfold Statement; decide
theorem crcUnzero : Statement .crcUnzero := by unfold Statement; decide
theorem crcMul : Statement .crcMul := by unfold Statement; decide
theorem crcPow2 : Statement .crcPow2 := by unfold Statement; decide
theorem crcPow256 : Statement .crcPow256 := by unfold Statement; decide
theorem encBlk (isEnd : Bool) : Statement (.encBlk isEnd) := by cases isEnd <;> (unfold Statement; decide)
theorem encMaxlen : Statement .encMaxlen := by unfold Statement; decide
theorem decBlk (isRaw : Bool) : Statement (.decBlk isRaw) := by cases isRaw <;> (unfold Statement; decide)
theorem decInc : Statement .decInc := by unfold Statement; decide
theorem frmSingle : Statement .frmSingle := by unfold Statement; decide
theorem frmMulti : Statement .frmMulti := by unfold Statement; decide

end Sys2Proof.Laws.EncodedWord
end

