-- ==== Sys2Proof/Tests/Slice0.lean ====
section
/-! SUPPORT. Tests: what the checks refuse, the decoding of words written out from 30_encoding.md R61 and R62, one step
of each command on the vectors of 95_test_vectors.md, and for every statement with hypotheses a witness that meets
them. Every expected value is the spec's. -/

namespace Sys2Proof.Tests

open Sys2Proof Sys2Proof.Machine

-- One theorem after the other: the kernel evaluations of this file each take a thread of their own otherwise.
set_option Elab.async false

/-! Helpers -/

/-- Does the step answer a next state with the property? -/
def gives (r : Result) (p : State → Bool) : Bool :=
  match r with
  | .next t => p t
  | .fault _ => false
  | .refused _ => false

/-- Does the step answer this refusal? -/
def refuses (r : Result) (e : Refusal) : Bool :=
  match r with
  | .next _ => false
  | .fault _ => false
  | .refused x => x == e

theorem next_of_gives {r : Result} {p : State → Bool} (h : gives r p = true) : ∃ t, r = .next t ∧ p t = true := by
  cases r with
  | next t => exact ⟨t, rfl, h⟩
  | fault e => cases h
  | refused e => cases h

theorem refused_of_refuses {r : Result} {e : Refusal} (h : refuses r e = true) : r = .refused e := by
  cases r with
  | next t => cases h
  | fault x => cases h
  | refused x => rw [eq_of_beq h]

/-- The reset state with a chunk in place. -/
def withChunk (data : List Byte) : State :=
  { State.reset with ibuf := bytesFrom 0 data, inLen := BitVec.ofNat 64 data.length }

/-- The reset state with a chunk and a filename in place. -/
def withName (data name : List Byte) : State :=
  { withChunk data with nbuf := bytesFrom 0 name, nameLen := BitVec.ofNat 64 name.length }

/-- The output of the last command. -/
def output (s : State) : Option (List Byte) := readBytes s.obuf s.outLen.toNat

/-- `"123456789"`. -/
def digits : List Byte := ascii ['1', '2', '3', '4', '5', '6', '7', '8', '9']

/-- `"Hello, world!"` and `"test.txt"` of V-FRM-1. -/
def hello : State :=
  withName (ascii ['H', 'e', 'l', 'l', 'o', ',', ' ', 'w', 'o', 'r', 'l', 'd', '!'])
    (ascii ['t', 'e', 's', 't', '.', 't', 'x', 't'])

/-- The chunk and the name of V-FRM-4. -/
def tenBytes : List Byte := [0x41#8, 0x42#8, 0xD6#8, 0x04#8, 0x04#8, 0xE3#8, 0x13#8, 0x00#8, 0xFF#8, 0x7F#8]
def sBin : List Byte := ascii ['s', '.', 'b', 'i', 'n']
def parts (line psize part : Len) : State :=
  { withName tenBytes sBin with line := line, psize := psize, part := part }

/-- A chunk of two bytes of which the first was never written. -/
def withHole : State := { withName [] [0x61#8] with ibuf := [(1, 0x41#8)], inLen := 2 }

/-- A chunk of one byte and a name of two bytes of which the first was never written. -/
def nameHole : State := { withChunk [0x41#8] with nbuf := [(1, 0x61#8)], nameLen := 2 }

/-- One byte of output. -/
def oneOut : State := { State.reset with obuf := [(0, 0x6B#8)], outLen := 1 }

/-! What the checks refuse (R42, R63; U9) -/

theorem test_wf_refuses_register_twenty :
    HostAction.wf State.reset.cfg (.regRead 20) = false ∧ HostAction.wf State.reset.cfg (.regWrite 20 0) = false ∧
      HostAction.wf State.reset.cfg (.regRead 19) = true := by decide

theorem test_wf_refuses_index_at_capacity :
    HostAction.wf State.reset.cfg (.bufRead .ibuf 65536) = false ∧
      HostAction.wf State.reset.cfg (.bufRead .obuf 65536) = false ∧
      HostAction.wf State.reset.cfg (.bufWrite .nbuf 65536 0) = false ∧
      HostAction.wf State.reset.cfg (.bufWrite .ibuf 65535 0) = true := by decide

theorem test_wf_refuses_host_write_of_obuf :
    HostAction.wf State.reset.cfg (.bufWrite .obuf 0 0) = false := by decide

theorem test_ill_formed_actions_stop :
    refuses (perform (.regRead 20) State.reset) (.noSuchRegister 20) = true ∧
      refuses (perform (.regWrite 20 1) State.reset) (.noSuchRegister 20) = true ∧
      refuses (perform (.bufWrite .obuf 0 1) State.reset) .obufWrittenByHost = true ∧
      refuses (perform (.bufRead .ibuf 65536) State.reset) (.noSuchIndex .ibuf 65536) = true ∧
      refuses (perform (.bufRead .ibuf 0) State.reset) (.unwrittenByte .ibuf) = true := by decide

theorem test_legalWord_refuses_unknown_opcodes :
    [0x00#32, 0x0F#32, 0x17#32, 0x22#32, 0x32#32, 0x42#32, 0x99#32].all (fun w => !legalWord w) = true := by decide

theorem test_legalWord_refuses_flag_on_format_N :
    [0x110#32, 0x111#32, 0x112#32, 0x113#32, 0x114#32, 0x115#32, 0x116#32, 0x121#32, 0x131#32, 0x140#32, 0x141#32].all
      (fun w => !legalWord w) = true := by decide

theorem test_legalWord_refuses_reserved_bits :
    [0x210#32, 0x80000010#32, 0x220#32, 0x80000030#32].all (fun w => !legalWord w) = true := by decide

theorem test_decode_refuses_by_name :
    decode 0x210#32 = .error .reservedBits ∧ decode 0x99#32 = .error .unknownOpcode ∧
      decode 0x131#32 = .error .flagOnFormatN := by decide

theorem test_instr_wf : ∀ f, (Instr.encBlk f).wf = true ∧ (Instr.decBlk f).wf = true := by decide

/-! Decoding: words written out from R61 (reserved bits 31..9, `F` bit 8, `OPC` bits 7..0) and the opcodes of R62 -/

theorem test_decode_CrcUpd : decode 0b00000000000000000000000_0_00010000#32 = .ok .crcUpd ∧
    encode .crcUpd = 0b00000000000000000000000_0_00010000#32 := by decide
theorem test_decode_CrcComb : decode 0b00000000000000000000000_0_00010001#32 = .ok .crcComb ∧
    encode .crcComb = 0b00000000000000000000000_0_00010001#32 := by decide
theorem test_decode_CrcZeros : decode 0b00000000000000000000000_0_00010010#32 = .ok .crcZeros ∧
    encode .crcZeros = 0b00000000000000000000000_0_00010010#32 := by decide
theorem test_decode_CrcUnzero : decode 0b00000000000000000000000_0_00010011#32 = .ok .crcUnzero ∧
    encode .crcUnzero = 0b00000000000000000000000_0_00010011#32 := by decide
theorem test_decode_CrcMul : decode 0b00000000000000000000000_0_00010100#32 = .ok .crcMul ∧
    encode .crcMul = 0b00000000000000000000000_0_00010100#32 := by decide
theorem test_decode_CrcPow2 : decode 0b00000000000000000000000_0_00010101#32 = .ok .crcPow2 ∧
    encode .crcPow2 = 0b00000000000000000000000_0_00010101#32 := by decide
theorem test_decode_CrcPow256 : decode 0b00000000000000000000000_0_00010110#32 = .ok .crcPow256 ∧
    encode .crcPow256 = 0b00000000000000000000000_0_00010110#32 := by decide
theorem test_decode_EncBlk : decode 0b00000000000000000000000_0_00100000#32 = .ok (.encBlk false) ∧
    encode (.encBlk false) = 0b00000000000000000000000_0_00100000#32 := by decide
theorem test_decode_EncBlk_end : decode 0b00000000000000000000000_1_00100000#32 = .ok (.encBlk true) ∧
    encode (.encBlk true) = 0b00000000000000000000000_1_00100000#32 := by decide
theorem test_decode_EncMaxlen : decode 0b00000000000000000000000_0_00100001#32 = .ok .encMaxlen ∧
    encode .encMaxlen = 0b00000000000000000000000_0_00100001#32 := by decide
theorem test_decode_DecBlk : decode 0b00000000000000000000000_0_00110000#32 = .ok (.decBlk false) ∧
    encode (.decBlk false) = 0b00000000000000000000000_0_00110000#32 := by decide
theorem test_decode_DecBlk_raw : decode 0b00000000000000000000000_1_00110000#32 = .ok (.decBlk true) ∧
    encode (.decBlk true) = 0b00000000000000000000000_1_00110000#32 := by decide
theorem test_decode_DecInc : decode 0b00000000000000000000000_0_00110001#32 = .ok .decInc ∧
    encode .decInc = 0b00000000000000000000000_0_00110001#32 := by decide
theorem test_decode_FrmSingle : decode 0b00000000000000000000000_0_01000000#32 = .ok .frmSingle ∧
    encode .frmSingle = 0b00000000000000000000000_0_01000000#32 := by decide
theorem test_decode_FrmMulti : decode 0b00000000000000000000000_0_01000001#32 = .ok .frmMulti ∧
    encode .frmMulti = 0b00000000000000000000000_0_01000001#32 := by decide

theorem test_table_word_decodes :
    decodeTableWord 32 0x120 = some (.encBlk true) ∧ decodeTableWord 32 0x200 = none ∧
      decodeTableWord 32 0x31 = some .decInc := by decide

/-! One step -/

theorem test_step_runs_the_presented_word :
    gives (step (State.reset.withFetchWord 32 0x16)) (fun t => t.r == 0x80000000#32 && t.script == []) = true := by
  decide +kernel

theorem test_step_takes_host_actions_in_order :
    gives (step { State.reset with script := [.regWrite 7 4, .regRead 7] })
      (fun t => t.line == 4 && t.script == [.regRead 7]) = true := by decide

theorem test_idle_step_keeps_the_state : gives (step State.reset) (fun t => t == State.reset) = true := by decide

theorem test_external_reset :
    gives (perform .reset { hello with line := 4, script := [.regRead 0] })
      (fun t => t == { State.reset with script := [.regRead 0] }) = true := by decide

/-- P5: an unknown opcode and a flag on a format-N word leave `STATUS` = 0x102. -/
theorem test_illegal_words_fault :
    gives (perform (.issue 0x99#32) State.reset) (fun t => t == { State.reset with status := 0x102#32 }) = true ∧
      gives (perform (.issue 0x131#32) State.reset) (fun t => t.status == 0x102#32) = true := by decide

/-- R11: only bit 8 of a write of `STATUS` acts. -/
theorem test_clear_sticky :
    gives (perform (.regWrite 0 0x100#64) { State.reset with status := 0x104#32 }) (fun t => t.status == 0x4#32) = true ∧
      gives (perform (.regWrite 0 0xFFFFFEFF#64) { State.reset with status := 0x104#32 })
        (fun t => t.status == 0x104#32) = true := by decide

/-- R20: `DSTATE` keeps bits 2..0; R32: a read-only register ignores writes. -/
theorem test_host_writes_of_dstate_and_r :
    gives (perform (.regWrite 9 0xFFFFFFFF#64) State.reset) (fun t => t.dstate == 7#32) = true ∧
      gives (perform (.regWrite 4 5) State.reset) (fun t => t == State.reset) = true := by decide

/-! The commands, on the vectors of 95_test_vectors.md -/

/-- V-CRC-2. -/
theorem test_crcUpd : gives (exec .crcUpd (withChunk digits)) (fun t => t.r == 0xCBF43926#32 && t.status == 0) = true := by
  decide +kernel
/-- V-CRC-4: an empty chunk returns the seed. -/
theorem test_crcUpd_empty :
    gives (exec .crcUpd { withChunk [] with a := 0x12345678#32 }) (fun t => t.r == 0x12345678#32) = true := by
  decide +kernel
/-- V-CRC-10. -/
theorem test_crcComb :
    gives (exec .crcComb { State.reset with a := 0xCBF53A1C#32, b := 0x9DBABF87#32, n := 4 })
      (fun t => t.r == 0xCBF43926#32) = true := by decide +kernel
/-- V-CRC-13. -/
theorem test_crcComb_empty_crc :
    gives (exec .crcComb { State.reset with a := 0xCBF43926#32, n := 1 }) (fun t => t.r == 0xD2C671C4#32) = true := by
  decide +kernel
/-- V-CRC-21. -/
theorem test_crcZeros :
    gives (exec .crcZeros { State.reset with a := 0xCBF43926#32, n := 3 }) (fun t => t.r == 0x77D55834#32) = true := by
  decide +kernel
/-- V-CRC-26. -/
theorem test_crcZeros_large :
    gives (exec .crcZeros { State.reset with n := 0x10000000000#64 }) (fun t => t.r == 0x0D968558#32) = true := by
  decide +kernel
/-- V-CRC-29. -/
theorem test_crcUnzero :
    gives (exec .crcUnzero { State.reset with a := 0xCBF43926#32, n := 9 }) (fun t => t.r == 0x5445B267#32) = true := by
  decide +kernel
/-- V-CRC-28. -/
theorem test_crcUnzero_of_zero :
    gives (exec .crcUnzero { State.reset with n := 1 }) (fun t => t.r == 0x0F6A7026#32) = true := by decide +kernel
/-- V-CRC-47. -/
theorem test_crcMul :
    gives (exec .crcMul { State.reset with a := 0x12345678#32, b := 0x9ABCDEF0#32 }) (fun t => t.r == 0xAA4F5316#32) =
      true := by decide +kernel
/-- V-CRC-42. -/
theorem test_crcMul_wraps :
    gives (exec .crcMul { State.reset with a := 1, b := 0x40000000#32 }) (fun t => t.r == 0xEDB88320#32) = true := by
  decide +kernel
/-- V-CRC-50. -/
theorem test_crcPow2 :
    gives (exec .crcPow2 { State.reset with n := 99 }) (fun t => t.r == 0xACC04271#32) = true ∧
      gives (exec .crcPow2 { State.reset with n := 0xFFFFFFFE#64 }) (fun t => t.r == 0xDB710641#32) = true := by
  decide +kernel
/-- V-CRC-51: `8 * 2^61` does not wrap. -/
theorem test_crcPow256 :
    gives (exec .crcPow256 { State.reset with n := 200 }) (fun t => t.r == 0x33FBCA3B#32) = true ∧
      gives (exec .crcPow256 { State.reset with n := 0x2000000000000000#64 }) (fun t => t.r == 0x40000000#32) = true := by
  decide +kernel
/-- V-ENC-24: `.` at the start of the second line. -/
theorem test_encBlk :
    gives (exec (.encBlk false) { withChunk [0x41#8, 0x41#8, 0x41#8, 0x41#8, 0x04#8] with line := 4 })
      (fun t => output t == some [0x6B#8, 0x6B#8, 0x6B#8, 0x6B#8, 0x0D#8, 0x0A#8, 0x3D#8, 0x6E#8] && t.col == 2) =
      true := by decide +kernel
/-- V-ENC-28: an escape pair on the last column is not split. -/
theorem test_encBlk_long_line :
    gives (exec (.encBlk true) { withChunk [0xD6#8] with line := 4, col := 3 })
      (fun t => output t == some [0x3D#8, 0x40#8, 0x0D#8, 0x0A#8] && t.col == 0 && t.outLen == 4) = true := by
  decide +kernel
/-- V-ENC-40, V-ENC-42. -/
theorem test_encMaxlen :
    gives (exec .encMaxlen { State.reset with n := 13 }) (fun t => t.maxlen == 28) = true ∧
      gives (exec .encMaxlen { State.reset with n := 1, line := 1 }) (fun t => t.maxlen == 6) = true := by decide +kernel
/-- V-ENC-45. -/
theorem test_encMaxlen_fault :
    gives (exec .encMaxlen { State.reset with line := 0 }) (fun t => t.status == 0x103#32 && t.maxlen == 0) = true := by
  decide +kernel
/-- V-DEC-40, V-DEC-41: unstuffing on and off. -/
theorem test_decBlk :
    gives (exec (.decBlk false) (withChunk (ascii ['k', 'k'] ++ crlf ++ ascii ['.'] ++ crlf ++ ascii ['z', 'z'])))
      (fun t => output t == some [0x41#8, 0x41#8, 0x50#8, 0x50#8] && t.dstate == 3 && t.consumed == 9) = true ∧
    gives (exec (.decBlk true) (withChunk (ascii ['k', 'k'] ++ crlf ++ ascii ['.'] ++ crlf ++ ascii ['z', 'z'])))
      (fun t => output t == some [0x41#8, 0x41#8, 0x04#8, 0x50#8, 0x50#8]) = true := by decide +kernel
/-- P5: `DSTATE` = 7 faults and changes nothing but `STATUS`. -/
theorem test_decBlk_fault :
    gives (exec (.decBlk false) { withChunk [0x41#8] with dstate := 7 })
      (fun t => t == { withChunk [0x41#8] with dstate := 7, status := 0x104#32 }) = true := by decide +kernel
/-- V-DEC-6: the control terminator; `zz` is not examined. -/
theorem test_decInc :
    gives (exec .decInc (withChunk (ascii ['k', 'k'] ++ crlf ++ ascii ['.'] ++ crlf ++ ascii ['z', 'z'])))
      (fun t => output t == some [0x41#8, 0x41#8] && t.dend == 1 && t.dstate == 0 && t.consumed == 7) = true := by
  decide +kernel
/-- V-DEC-15: `.=y` is no terminator. -/
theorem test_decInc_dot_escape :
    gives (exec .decInc (withChunk (ascii ['k', 'k'] ++ crlf ++ ascii ['.', '=', 'y', 'e', 'n', 'd'])))
      (fun t => output t == some [0x41#8, 0x41#8, 0x0F#8, 0x3B#8, 0x44#8, 0x3A#8] && t.dend == 0 && t.dstate == 3 &&
        t.consumed == 10) = true := by decide +kernel
/-- V-FRM-1. -/
theorem test_frmSingle :
    gives (exec .frmSingle hello)
      (fun t => output t == some
         (ascii ['=', 'y', 'b', 'e', 'g', 'i', 'n', ' ', 'l', 'i', 'n', 'e', '=', '1', '2', '8', ' ', 's', 'i', 'z', 'e', '=']
          ++ ascii ['1', '3', ' ', 'n', 'a', 'm', 'e', '=', 't', 'e', 's', 't', '.', 't', 'x', 't'] ++ crlf
          ++ [0x72#8, 0x8F#8, 0x96#8, 0x96#8, 0x99#8, 0x56#8, 0x4A#8, 0xA1#8, 0x99#8, 0x9C#8, 0x96#8, 0x8E#8, 0x4B#8]
          ++ crlf ++ ascii ['=', 'y', 'e', 'n', 'd', ' ', 's', 'i', 'z', 'e', '=', '1', '3', ' ', 'c', 'r', 'c', '3', '2', '=', 'e', 'b']
          ++ ascii ['e', '6', 'c', '6', 'e', '6'] ++ crlf)
        && t.outLen == 85 && t.apart == 1 && t.atotal == 1 && t.fcrc == 0xEBE6C6E6#32 && t.pcrc == 0xEBE6C6E6#32) =
      true := by decide +kernel
/-- P5: straight after reset `IN_LEN` = 0 is `E_ARG`. -/
theorem test_frmSingle_fault : gives (exec .frmSingle State.reset) (fun t => t.status == 0x101#32) = true := by
  decide +kernel
/-- V-FRM-4, part 2. -/
theorem test_frmMulti :
    gives (exec .frmMulti (parts 128 4 2))
      (fun t => output t == some
         (ascii ['=', 'y', 'b', 'e', 'g', 'i', 'n', ' ', 'p', 'a', 'r', 't', '=', '2', ' ', 't', 'o', 't', 'a', 'l', '=', '3']
          ++ ascii [' ', 'l', 'i', 'n', 'e', '=', '1', '2', '8', ' ', 's', 'i', 'z', 'e', '=', '1', '0', ' ', 'n', 'a', 'm', 'e']
          ++ ascii ['=', 's', '.', 'b', 'i', 'n'] ++ crlf
          ++ ascii ['=', 'y', 'p', 'a', 'r', 't', ' ', 'b', 'e', 'g', 'i', 'n', '=', '5', ' ', 'e', 'n', 'd', '=', '8'] ++ crlf
          ++ [0x3D#8, 0x6E#8, 0x3D#8, 0x4D#8, 0x3D#8, 0x7D#8, 0x2A#8, 0x0D#8, 0x0A#8]
          ++ ascii ['=', 'y', 'e', 'n', 'd', ' ', 's', 'i', 'z', 'e', '=', '4', ' ', 'p', 'a', 'r', 't', '=', '2', ' ', 'p', 'c']
          ++ ascii ['r', 'c', '3', '2', '=', '6', '4', '6', 'd', '6', '7', '2', '0', ' ', 'c', 'r', 'c', '3', '2', '=', 'b', '3']
          ++ ascii ['7', 'c', 'e', '2', '5', '6'] ++ crlf)
        && t.outLen == 135 && t.apart == 2 && t.atotal == 3 && t.fcrc == 0xB37CE256#32 && t.pcrc == 0x646D6720#32) =
      true := by decide +kernel
/-- V-FRM-1 and V-FRM-4, part 2: the frames the statements write out are the texts of the vectors. -/
theorem test_frames :
    singleFrame (ascii ['H', 'e', 'l', 'l', 'o', ',', ' ', 'w', 'o', 'r', 'l', 'd', '!'])
        (ascii ['t', 'e', 's', 't', '.', 't', 'x', 't']) 128 =
      ascii ['=', 'y', 'b', 'e', 'g', 'i', 'n', ' ', 'l', 'i', 'n', 'e', '=', '1', '2', '8', ' ', 's', 'i', 'z', 'e', '=']
          ++ ascii ['1', '3', ' ', 'n', 'a', 'm', 'e', '=', 't', 'e', 's', 't', '.', 't', 'x', 't'] ++ crlf
          ++ [0x72#8, 0x8F#8, 0x96#8, 0x96#8, 0x99#8, 0x56#8, 0x4A#8, 0xA1#8, 0x99#8, 0x9C#8, 0x96#8, 0x8E#8, 0x4B#8]
          ++ crlf ++ ascii ['=', 'y', 'e', 'n', 'd', ' ', 's', 'i', 'z', 'e', '=', '1', '3', ' ', 'c', 'r', 'c', '3', '2', '=', 'e', 'b']
          ++ ascii ['e', '6', 'c', '6', 'e', '6'] ++ crlf ∧
    partFrame tenBytes sBin 4 128 2 =
      ascii ['=', 'y', 'b', 'e', 'g', 'i', 'n', ' ', 'p', 'a', 'r', 't', '=', '2', ' ', 't', 'o', 't', 'a', 'l', '=', '3']
          ++ ascii [' ', 'l', 'i', 'n', 'e', '=', '1', '2', '8', ' ', 's', 'i', 'z', 'e', '=', '1', '0', ' ', 'n', 'a', 'm', 'e']
          ++ ascii ['=', 's', '.', 'b', 'i', 'n'] ++ crlf
          ++ ascii ['=', 'y', 'p', 'a', 'r', 't', ' ', 'b', 'e', 'g', 'i', 'n', '=', '5', ' ', 'e', 'n', 'd', '=', '8'] ++ crlf
          ++ [0x3D#8, 0x6E#8, 0x3D#8, 0x4D#8, 0x3D#8, 0x7D#8, 0x2A#8, 0x0D#8, 0x0A#8]
          ++ ascii ['=', 'y', 'e', 'n', 'd', ' ', 's', 'i', 'z', 'e', '=', '4', ' ', 'p', 'a', 'r', 't', '=', '2', ' ', 'p', 'c']
          ++ ascii ['r', 'c', '3', '2', '=', '6', '4', '6', 'd', '6', '7', '2', '0', ' ', 'c', 'r', 'c', '3', '2', '=', 'b', '3']
          ++ ascii ['7', 'c', 'e', '2', '5', '6'] ++ crlf := by decide +kernel
/-- V-FRM-5 (the single-part form), V-FRM-4 (`PART` outside the list). -/
theorem test_frmMulti_edges :
    gives (exec .frmMulti (parts 8 10 1)) (fun t => t.outLen == 82 && t.atotal == 1 && t.pcrc == 0xB37CE256#32) = true ∧
      gives (exec .frmMulti (parts 128 4 4)) (fun t => t.status == 0x103#32) = true ∧
      gives (exec .frmMulti (parts 128 4 0)) (fun t => t.status == 0x103#32) = true ∧
      gives (exec .frmMulti (parts 128 0xFFFFFFFFFFFFFFFF#64 1)) (fun t => t.status == 0x101#32) = true := by
  decide +kernel

/-! Witnesses: for every statement with hypotheses, states and operands that meet them, at the edges of its clauses -/

theorem witness_StepTakesTheNextHostAction :
    State.reset.script = [] ∧ ({ State.reset with script := [.regRead 0] } : State).script = .regRead 0 :: [] := ⟨rfl, rfl⟩

theorem witness_StepRunsTheDecodedCommand :
    (presentWord 0x120#32 State.reset).script = .issue 0x120#32 :: [] ∧ decode 0x120#32 = .ok (.encBlk true) ∧
      (Instr.encBlk true).wf = true := by decide

theorem witness_IllegalWordFaultsAndChangesOnlyStatus :
    legalWord 0x17#32 = false ∧ legalWord 0x110#32 = false ∧ legalWord 0x210#32 = false := by decide

theorem witness_HostReadReturnsTheRegister :
    regOfNumber 0 = some .status ∧ regOfNumber 19 = some .maxlen ∧ regOfNumber 20 = none := by decide

theorem witness_HostWriteActsOnOneRegister :
    [0, 1, 3, 4, 9, 19].map regOfNumber =
      [some .status, some .a, some .n, some .r, some .dstate, some .maxlen] := by decide

theorem witness_BufferWriteThenReadReturnsTheByte :
    (Config.Buf.ibuf ≠ .obuf ∧ 65535 < State.reset.cfg.size .ibuf) ∧ Config.Buf.nbuf ≠ .obuf ∧
      0 < State.reset.cfg.size .nbuf := by decide

theorem witness_UnwrittenByteIsRefused_read :
    (0 < State.reset.cfg.size .obuf ∧ readByte (buffer State.reset .obuf) 0 = none) ∧
      65535 < State.reset.cfg.size .ibuf ∧ readByte (buffer State.reset .ibuf) 65535 = none := by decide

theorem witness_UnwrittenByteIsRefused_decInc :
    inState withHole = some .crlf ∧ (decodeIncremental (chunkFront withHole) .crlf).marker = .none := by decide +kernel

theorem witness_UnwrittenByteIsRefused_name :
    ChunkIs nameHole [0x41#8] ∧ nameHole.nbuf.wf ∧ nameHole.nameLen.toNat ≤ nameHole.cfg.nbufSize ∧
      1 ≤ nameHole.line.toNat ∧ 0 < nameHole.nameLen.toNat ∧ readByte nameHole.nbuf 0 = none :=
  ⟨by decide +kernel, by simp [nameHole, Memory.wf], by decide +kernel⟩

theorem witness_UnwrittenByteIsRefused_command :
    withHole.ibuf.wf ∧ withHole.inLen.toNat ≤ withHole.cfg.ibufSize ∧ 0 < withHole.inLen.toNat ∧
      readByte withHole.ibuf 0 = none ∧ withHole.col.toNat < withHole.line.toNat ∧ dstateField withHole.dstate ≠ 7 ∧
      withHole.nameLen.toNat ≤ withHole.cfg.nbufSize ∧ 1 ≤ withHole.line.toNat := by
  refine ⟨by simp [withHole, Memory.wf], ?_⟩
  decide +kernel

theorem witness_ActionsWithoutMeaningAreRefused :
    HostAction.wf State.reset.cfg (.regRead 20) = false ∧
      (HostAction.wf hello.cfg (.bufRead .ibuf 12) = true ∧ readByte (buffer hello .ibuf) 12 ≠ none) ∧
      HostAction.wf State.reset.cfg (.regRead 19) = true := by decide

theorem witness_ActionsWithoutMeaningAreRefused_read :
    (0 < oneOut.cfg.size .obuf ∧ readByte (buffer oneOut .obuf) 0 = some 0x6B#8) ∧
      12 < hello.cfg.size .ibuf ∧ readByte (buffer hello .ibuf) 12 = some 0x21#8 := by decide +kernel

theorem witness_ChunkIsTheBytesOfTheBuffer :
    (withChunk digits).ibuf.wf ∧ withHole.ibuf.wf ∧ chunk (withChunk digits) = some digits ∧ chunk withHole = none :=
  ⟨wf_bytesFrom 0 digits, by simp [withHole, Memory.wf], by decide +kernel, by decide +kernel⟩

theorem witness_UnzeroInvertsZeros : zeros 0xFFFFFFFF#32 1 = 0xFFFFFFFF#32 := by decide +kernel

theorem witness_CrcUpd_completes : ChunkIs (withChunk digits) digits ∧ ChunkIs (withChunk []) [] := by decide +kernel

theorem witness_CrcUpd_faults :
    ({ State.reset with inLen := 65537 } : State).cfg.ibufSize < ({ State.reset with inLen := 65537 } : State).inLen.toNat := by
  decide

theorem witness_CrcCommandsFrame :
    Instr.crcUpd ∈ crcCommands ∧ (∃ t, exec .crcUpd (withChunk digits) = .next t ∧ (t.r == 0xCBF43926#32) = true) ∧
      Instr.crcPow256 ∈ crcCommands ∧ ∃ t, exec .crcPow256 State.reset = .next t ∧ (t.r == 0x80000000#32) = true :=
  ⟨by decide, next_of_gives (p := fun t => t.r == 0xCBF43926#32) (by decide +kernel), by decide,
    next_of_gives (p := fun t => t.r == 0x80000000#32) (by decide +kernel)⟩

theorem witness_EncodeColumnStaysInTheLine :
    3 < 4 ∧ (encodeBytes [0x41#8] 4 3 true).2 = 0 ∧ [0x41#8] ≠ ([] : List Byte) ∧ 0 < 1 := by decide +kernel

theorem witness_EncodedLinesHaveTheirShape : (1 ≤ 1) ∧ 1 ≤ 128 := by decide

theorem witness_EscapedBytesAndTheirPairs :
    mustEscape (0x04#8 + 42#8) 0 = true ∧ mustEscape (0x04#8 + 42#8) 1 = false ∧ mustEscape (0xD6#8 + 42#8) 1 = true := by
  decide

theorem witness_EncMaxLenBoundsTheOutput :
    3 < 4 ∧ (encodeBytes [0xD6#8] 4 3 true).1.length = encMaxLen .dflt 1 4 := by decide +kernel

/-- Four characters a byte is a formula with the property of R121. -/
theorem witness_EveryAdmissibleFormulaIsCovered :
    ∀ data lineSize col e, col < lineSize → (encodeBytes data lineSize col e).1.length ≤ 4 * data.length := by
  intro data lineSize col e _hcol
  clear _hcol
  induction data generalizing col with
  | nil => exact Nat.le_refl 0
  | cons b rest ih =>
    have h : (encodeByte lineSize col b).1.length ≤ 4 := by
      unfold encodeByte encodeChars
      split <;> split <;> simp [crlf]
    have := ih (encodeByte lineSize col b).2
    simp only [encodeBytes, List.length_append, List.length_cons]
    omega

theorem witness_EncBlk_completes :
    let s := { withChunk [0x41#8, 0x41#8] with line := 4, col := 3 }
    s.cfg.wf ∧ ChunkIs s [0x41#8, 0x41#8] ∧ s.col.toNat < s.line.toNat ∧
      (encodeBytes [0x41#8, 0x41#8] s.line.toNat s.col.toNat false).1.length ≤ s.cfg.obufSize := by decide +kernel

theorem witness_EncBlk_faults_on_lengths :
    let long := { State.reset with inLen := 65537 }
    let zero := { withChunk [0x41#8] with line := 0 }
    let past := { withChunk [0x41#8] with line := 4, col := 4 }
    long.cfg.ibufSize < long.inLen.toNat ∧ (zero.inLen.toNat ≤ zero.cfg.ibufSize ∧ zero.line = 0) ∧
      past.inLen.toNat ≤ past.cfg.ibufSize ∧ past.line ≠ 0 ∧ past.line.toNat ≤ past.col.toNat := by decide +kernel

/-- The example of 95_test_vectors.md: four characters do not fit three bytes. -/
theorem witness_EncBlk_faults_on_overflow :
    let s := { withChunk [0xD6#8, 0xD6#8] with cfg := { State.reset.cfg with obufSize := 3 } }
    ChunkIs s [0xD6#8, 0xD6#8] ∧ s.col.toNat < s.line.toNat ∧
      s.cfg.obufSize < (encodeBytes [0xD6#8, 0xD6#8] s.line.toNat s.col.toNat true).1.length := by decide +kernel

theorem witness_EncMaxlenPutsTheBoundInMaxlen :
    let fits := { State.reset with n := 1, line := 1 }
    let zero := { State.reset with line := 0 }
    let big := { State.reset with n := 0x8000000000000000#64, line := 1 }
    (fits.line ≠ 0 ∧ encMaxLen fits.cfg.maxLen fits.n.toNat fits.line.toNat < 2 ^ 64) ∧ zero.line = 0 ∧
      big.line ≠ 0 ∧ 2 ^ 64 ≤ encMaxLen big.cfg.maxLen big.n.toNat big.line.toNat := by decide +kernel

theorem witness_EncoderCommandsFrame :
    (∃ t, exec (.encBlk true) (withChunk digits) = .next t ∧ (t.col == 9) = true) ∧
      ∃ t, exec .encMaxlen State.reset = .next t ∧ (t.maxlen == 0) = true :=
  ⟨next_of_gives (p := fun t => t.col == 9) (by decide +kernel),
    next_of_gives (p := fun t => t.maxlen == 0) (by decide +kernel)⟩

theorem witness_DecodeIsResumable :
    (decodeIncremental (ascii ['k', '=']) .crlf).marker = .none ∧
      (decodeIncremental (ascii ['=', 'y']) .crlf).marker ≠ .none := by decide +kernel

theorem witness_EncodeDecodeRoundTrip : (1 ≤ 1) ∧ 1 ≤ 128 := by decide

theorem witness_IncrementalStopsAtTheTerminator :
    (decodeIncremental [] .crlf).marker = .none ∧
      (decodeIncremental (ascii ['.'] ++ crlf) .crlf).marker = .control ∧
      (decodeIncremental (ascii ['=', 'y']) .crlf).marker = .article := by decide +kernel

theorem witness_TerminatorsAreTheTwoPatterns :
    (decodeIncremental (ascii ['k'] ++ crlf ++ ascii ['.'] ++ crlf) .crlf).marker = .control ∧
      (decodeIncremental (ascii ['k'] ++ crlf ++ ascii ['=', 'y', 'e']) .crlf).marker = .article := by decide +kernel

theorem witness_PayloadThenTerminatorDecodes : (1 ≤ 1) ∧ 1 ≤ 128 := by decide

theorem witness_DecBlk_completes :
    let s := withChunk (ascii ['k', '='])
    s.cfg.wf ∧ ChunkIs s (ascii ['k', '=']) ∧ inState s = some .crlf ∧
      (decodeBlock (ascii ['k', '=']) true .crlf).1.length ≤ s.cfg.obufSize := by decide +kernel

theorem witness_DecBlk_and_DecInc_fault :
    let long := { State.reset with inLen := 65537 }
    let bad := { withChunk [0x41#8] with dstate := 7 }
    let full := { withChunk (ascii ['k', 'k']) with cfg := { State.reset.cfg with obufSize := 1 } }
    long.cfg.ibufSize < long.inLen.toNat ∧ (bad.inLen.toNat ≤ bad.cfg.ibufSize ∧ dstateField bad.dstate = 7) ∧
      ChunkIs full (ascii ['k', 'k']) ∧ inState full = some .crlf ∧
      full.cfg.obufSize < (decodeBlock (ascii ['k', 'k']) false .crlf).1.length ∧
      full.cfg.obufSize < (decodeIncremental (ascii ['k', 'k']) .crlf).out.length := by decide +kernel

theorem witness_DecInc_completes :
    let s := { withChunk (ascii ['=', 'y', 'e']) with dstate := 0 }
    s.cfg.wf ∧ ChunkIs s (ascii ['=', 'y', 'e']) ∧ inState s = some .crlf ∧
      (decodeIncremental (ascii ['=', 'y', 'e']) .crlf).out.length ≤ s.cfg.obufSize := by decide +kernel

theorem witness_DecIncExaminesNothingAfterTheTerminator :
    let stops := { withChunk (ascii ['=', 'y']) with inLen := 3 }
    let short := { withChunk (ascii ['k']) with inLen := 3 }
    (stops.inLen.toNat ≤ stops.cfg.ibufSize ∧ inState stops = some .crlf ∧
      (decodeIncremental (chunkFront stops) .crlf).marker ≠ .none ∧
      (decodeIncremental (chunkFront stops) .crlf).out.length ≤ stops.cfg.obufSize) ∧
    short.inLen.toNat ≤ short.cfg.ibufSize ∧ inState short = some .crlf ∧
      (decodeIncremental (chunkFront short) .crlf).marker = .none ∧ (chunkFront short).length < short.inLen.toNat := by
  decide +kernel

theorem witness_DecoderCommandsFrame :
    (∃ t, exec (.decBlk false) (withChunk (ascii ['k'])) = .next t ∧ (t.consumed == 1) = true) ∧
      ∃ t, exec .decInc (withChunk (ascii ['k'])) = .next t ∧ (t.consumed == 1) = true :=
  ⟨next_of_gives (p := fun t => t.consumed == 1) (by decide +kernel),
    next_of_gives (p := fun t => t.consumed == 1) (by decide +kernel)⟩

theorem witness_NumbersInTextAreTheNumbers :
    dec 0 = ascii ['0'] ∧ (dec 0).head? = some 0x30#8 ∧ (0x35#8 : Byte) ∈ dec 500 ∧
      (0x66#8 : Byte) ∈ hex8 0x0000000F#32 := by decide +kernel

theorem witness_FrmSingleFramesTheChunk :
    let data := ascii ['A']
    let name := ascii [' ', 'a']
    let s := { withName data name with line := 1 }
    s.cfg.wf ∧ ChunkIs s data ∧ NameIs s name ∧ 1 ≤ s.line.toNat ∧ validArgs data name = true ∧
      (singleArticle data name s.line.toNat).text.length ≤ s.cfg.obufSize := by decide +kernel

theorem witness_FrmMultiFramesTheSelectedPart :
    let s := parts 128 4 3
    let one := parts 8 10 1
    (one.cfg.wf ∧ ChunkIs one tenBytes ∧ NameIs one sBin ∧ 1 ≤ one.line.toNat ∧ 0 < one.psize.toInt ∧
      1 ≤ one.part.toNat ∧ tenBytes.length ≤ one.psize.toNat ∧
      (multiArticles tenBytes sBin one.psize.toNat one.line.toNat)[one.part.toNat - 1]? =
        some (singleArticle tenBytes sBin 8) ∧
      (singleArticle tenBytes sBin 8).text.length ≤ one.cfg.obufSize) ∧
    s.cfg.wf ∧ ChunkIs s tenBytes ∧ NameIs s sBin ∧ 1 ≤ s.line.toNat ∧ validArgs tenBytes sBin = true ∧
      0 < s.psize.toInt ∧ 1 ≤ s.part.toNat ∧
      (multiArticles tenBytes sBin s.psize.toNat s.line.toNat)[s.part.toNat - 1]? =
        some (partArticle tenBytes sBin 4 128 3) ∧
      (partArticle tenBytes sBin 4 128 3).text.length ≤ s.cfg.obufSize := by decide +kernel

theorem witness_FramerFaultsInOrder_lengths :
    (State.reset.cfg.ibufSize < ({ State.reset with inLen := 65537 } : State).inLen.toNat) ∧
      (State.reset.cfg.nbufSize < ({ State.reset with nameLen := 65537 } : State).nameLen.toNat) ∧
      ({ State.reset with line := 0 } : State).line = 0 := by decide

theorem witness_FramerFaultsInOrder_arguments :
    (ChunkIs State.reset [] ∧ NameIs State.reset [] ∧ State.reset.line ≠ 0 ∧ validArgs [] [] = false) ∧
      (parts 128 0 1).psize.toInt ≤ 0 ∧ (parts 128 0xFFFFFFFFFFFFFFFF#64 1).psize.toInt ≤ 0 ∧
      ChunkIs (parts 128 0 1) tenBytes ∧ NameIs (parts 128 0 1) sBin := by decide +kernel

theorem witness_FramerFaultsInOrder_part :
    ChunkIs (parts 128 4 4) tenBytes ∧ NameIs (parts 128 4 4) sBin ∧ (parts 128 4 4).line ≠ 0 ∧
      validArgs tenBytes sBin = true ∧ 0 < (parts 128 4 4).psize.toInt ∧ (parts 128 4 0).part = 0 ∧
      (multiArticles tenBytes sBin (parts 128 4 4).psize.toNat (parts 128 4 4).line.toNat).length <
        (parts 128 4 4).part.toNat := by decide +kernel

theorem witness_FramerFaultsInOrder_overflow :
    let s := { parts 128 4 1 with cfg := { State.reset.cfg with obufSize := 81 } }
    ChunkIs s tenBytes ∧ NameIs s sBin ∧ s.line ≠ 0 ∧ validArgs tenBytes sBin = true ∧ 0 < s.psize.toInt ∧
      1 ≤ s.part.toNat ∧ s.cfg.obufSize < (singleArticle tenBytes sBin s.line.toNat).text.length ∧
      (multiArticles tenBytes sBin s.psize.toNat s.line.toNat)[s.part.toNat - 1]? =
        some (partArticle tenBytes sBin 4 128 1) ∧
      s.cfg.obufSize < (partArticle tenBytes sBin 4 128 1).text.length := by decide +kernel

theorem witness_PartsCoverTheData :
    (1 ≤ 4 ∧ 1 ≤ 128 ∧ tenBytes ≠ [] ∧ 1 ≤ 2 ∧ 2 < partCount tenBytes.length 4) ∧ tenBytes.length ≤ 10 := by decide

theorem witness_FramerCommandsFrame :
    (∃ t, exec .frmSingle hello = .next t ∧ (t.apart == 1) = true) ∧
      ∃ t, exec .frmMulti (parts 128 4 2) = .next t ∧ (t.apart == 2) = true :=
  ⟨next_of_gives (p := fun t => t.apart == 1) (by decide +kernel),
    next_of_gives (p := fun t => t.apart == 2) (by decide +kernel)⟩

theorem witness_FaultsArePrecise :
    ∃ t, exec .frmSingle State.reset = .next t ∧ (statusCode t.status != 0) = true :=
  next_of_gives (p := fun t => statusCode t.status != 0) (by decide +kernel)

theorem witness_StatusAfterEveryCommand :
    (∃ t, exec .crcMul { State.reset with status := 0x102#32 } = .next t ∧ (statusCode t.status == 0) = true) ∧
      ∃ t, exec (.decBlk true) { State.reset with dstate := 7 } = .next t ∧ (statusCode t.status != 0) = true :=
  ⟨next_of_gives (p := fun t => statusCode t.status == 0) (by decide +kernel),
    next_of_gives (p := fun t => statusCode t.status != 0) (by decide +kernel)⟩

theorem witness_CommandsNeverWriteHostOperands :
    ∃ t, exec .frmMulti (parts 128 4 2) = .next t ∧ (t.part == 2) = true :=
  next_of_gives (p := fun t => t.part == 2) (by decide +kernel)

/-- The capacity is met with equality by V-ENC-43 and by three plain bytes. -/
theorem witness_SafeCapacityMeansNoOverflow :
    let e := { withChunk [0xD6#8] with line := 4, col := 3, cfg := { State.reset.cfg with obufSize := 4 } }
    let d := { withChunk (ascii ['k', 'k', 'k']) with cfg := { State.reset.cfg with obufSize := 3 } }
    (encMaxLen e.cfg.maxLen e.inLen.toNat e.line.toNat ≤ e.cfg.obufSize ∧
      gives (exec (.encBlk true) e) (fun t => t.outLen == 4) = true) ∧
    d.inLen.toNat ≤ d.cfg.obufSize ∧ gives (exec (.decBlk true) d) (fun t => t.outLen == 3) = true ∧
      gives (exec .decInc d) (fun t => t.outLen == 3) = true ∧ 1 ≤ 1 := by decide +kernel

theorem witness_CommandsStraightAfterReset :
    State.reset = { State.reset with cfg := Config.Params.dflt } ∧ Config.Params.dflt.maxLen = .dflt ∧
      gives (exec .encMaxlen State.reset) (fun t => t.status == 0 && t.maxlen == 0) = true ∧
      gives (exec .frmMulti State.reset) (fun t => t.status == 0x101#32) = true := by decide +kernel

theorem witness_NoCommandReadsTheFlags :
    exec .crcUpd withHole = .refused (.unwrittenByte .ibuf) ∧
      ∃ t, exec .decInc { withChunk (ascii ['k']) with dend := 2 } = .next t ∧ (t.dend == 0) = true :=
  ⟨refused_of_refuses (by decide +kernel), next_of_gives (p := fun t => t.dend == 0) (by decide +kernel)⟩

theorem witness_StepKeepsGood :
    ∃ t, State.reset.Good ∧ step (presentWord 0x16#32 State.reset) = .next t ∧ (t.r == 0x80000000#32) = true := by
  obtain ⟨t, h, hp⟩ := next_of_gives (r := step (presentWord 0x16#32 State.reset)) (p := fun t => t.r == 0x80000000#32)
    (by decide +kernel)
  refine ⟨t, ⟨by decide, ⟨?_, ?_, ?_, ?_⟩, ⟨?_, ?_, ?_, ?_, ?_⟩, ⟨?_, ?_, ?_⟩⟩, h, hp⟩
  case refine_1 | refine_2 | refine_3 => exact ⟨wf_nil, fun c hc => nomatch hc⟩
  case refine_4 => exact fun i => ⟨fun hi => (by simp [State.reset] at hi), fun hi => absurd hi (Nat.not_lt_zero i)⟩
  all_goals decide

end Sys2Proof.Tests
end

section
/-! PROOFS. The family 10_state.md: the registers at the host port, the chunk, and what every command does to the state. -/

namespace Sys2Proof.Machine

/-! ## The register map (10_state.md section 1, R46) -/

/-- The number of a register, the inverse of `regOfNumber`. -/
def numberOfReg : Reg → Nat
  | .status => 0
  | .a => 1
  | .b => 2
  | .n => 3
  | .r => 4
  | .inLen => 5
  | .outLen => 6
  | .line => 7
  | .col => 8
  | .dstate => 9
  | .dend => 10
  | .consumed => 11
  | .nameLen => 12
  | .psize => 13
  | .part => 14
  | .apart => 15
  | .atotal => 16
  | .fcrc => 17
  | .pcrc => 18
  | .maxlen => 19

theorem numberOfReg_lt (reg : Reg) : numberOfReg reg < 20 := by cases reg <;> decide

@[simp] theorem regOfNumber_numberOfReg (reg : Reg) : regOfNumber (numberOfReg reg) = some reg := by
  cases reg <;> rfl

theorem regOfNumber_eq_some {n : Nat} {reg : Reg} : regOfNumber n = some reg ↔ n = numberOfReg reg := by
  constructor
  · intro h
    unfold regOfNumber at h
    split at h <;> cases h <;> rfl
  · rintro rfl
    exact regOfNumber_numberOfReg reg

theorem exists_regOfNumber_iff (n : Nat) : (∃ reg, regOfNumber n = some reg) ↔ n < 20 := by
  constructor
  · rintro ⟨reg, h⟩
    rw [regOfNumber_eq_some.1 h]
    exact numberOfReg_lt reg
  · have hall : ∀ n < 20, (regOfNumber n).isSome = true := by decide
    exact fun h => Option.isSome_iff_exists.1 (hall n h)

/-! ## Host reads and writes of a register (R32) -/

theorem perform_regRead {n : Nat} {reg : Reg} (h : regOfNumber n = some reg) (s : State) :
    perform (.regRead n) s = .next { s with replies := .reg (readReg s reg) :: s.replies } := by
  simp [perform, hostRegRead, h]

theorem perform_regWrite {n : Nat} {reg : Reg} (h : regOfNumber n = some reg) (v : Len) (s : State) :
    perform (.regWrite n v) s = .next (writeReg s v reg) := by
  simp [perform, hostRegWrite, h]

@[simp] theorem readReg_withReplies (s : State) (q : List Reply) (reg : Reg) :
    readReg { s with replies := q } reg = readReg s reg := by cases reg <;> rfl

@[simp] theorem buffer_withReplies (s : State) (q : List Reply) (b : Config.Buf) :
    buffer { s with replies := q } b = buffer s b := by cases b <;> rfl

/-- Settles O5: `numberOfReg` inverts the register map, and a read only puts its value in front of the replies. -/
theorem hostReadReturnsTheRegister : Obligations.HostReadReturnsTheRegister := by
  refine ⟨rfl, exists_regOfNumber_iff, fun reg => ⟨_, regOfNumber_numberOfReg reg⟩, ?injective, ?values, ?read⟩
  case injective =>
    intro m n reg hm hn
    rw [regOfNumber_eq_some.1 hm, regOfNumber_eq_some.1 hn]
  case values =>
    intro s
    simp [readReg]
  case read =>
    intro s n reg h
    exact ⟨_, perform_regRead h s, rfl, fun _ _ => readReg_withReplies .., fun b i => by rw [buffer_withReplies], rfl,
      rfl⟩

theorem readReg_writeReg_of_ne (s : State) (v : Len) {reg reg' : Reg} (h : reg' ≠ reg) :
    readReg (writeReg s v reg) reg' = readReg s reg' := by
  cases reg with
  | status =>
    simp only [writeReg]
    split
    · cases reg' <;> simp [readReg] at h ⊢
    · rfl
  | r | outLen | dend | consumed | apart | atotal | fcrc | pcrc | maxlen => rfl
  | a | b | n | inLen | line | col | dstate | nameLen | psize | part =>
    cases reg' <;> simp [readReg, writeReg] at h ⊢

theorem buffer_writeReg (s : State) (v : Len) (reg : Reg) (b : Config.Buf) :
    buffer (writeReg s v reg) b = buffer s b := by
  cases reg with
  | status =>
    simp only [writeReg]
    split <;> cases b <;> rfl
  | _ => cases b <;> rfl

theorem samePort_writeReg (s : State) (v : Len) (reg : Reg) : SamePort s (writeReg s v reg) := by
  cases reg with
  | status =>
    simp only [writeReg]
    split <;> exact ⟨rfl, rfl, rfl⟩
  | _ => exact ⟨rfl, rfl, rfl⟩

theorem setWidth_low32 (v : Len) : (v.setWidth 32).setWidth 64 = v &&& 0xFFFFFFFF#64 := by
  refine BitVec.eq_of_toNat_eq ?_
  have hmask := Nat.and_two_pow_sub_one_eq_mod v.toNat 32
  simp at hmask ⊢
  omega

theorem setWidth_dstateWord_low3 (v : Len) : (dstateWord (v.extractLsb' 0 3)).setWidth 64 = v &&& 7#64 := by
  refine BitVec.eq_of_toNat_eq ?_
  have hmask := Nat.and_two_pow_sub_one_eq_mod v.toNat 3
  rw [dstateWord, BitVec.toNat_setWidth, BitVec.toNat_append]
  simp at hmask ⊢
  omega

theorem setWidth_statusWord_false (c : BitVec 8) : (statusWord false c).setWidth 64 = c.setWidth 64 := by
  refine BitVec.eq_of_toNat_eq ?_
  rw [statusWord, BitVec.toNat_setWidth, BitVec.toNat_append, BitVec.toNat_append]
  simp

/-- Settles O6: the frame of `writeReg`, and for each register what it holds afterwards. -/
theorem hostWriteActsOnOneRegister : Obligations.HostWriteActsOnOneRegister := by
  intro s n v reg h
  refine ⟨_, perform_regWrite h v s, fun reg' hne => readReg_writeReg_of_ne s v (by simpa using hne),
    fun b i => by rw [buffer_writeReg], samePort_writeReg s v reg, ?_⟩
  cases reg with
  | status =>
    simp only [writeReg]
    split
    · exact setWidth_statusWord_false _
    · rfl
  | a | b => exact setWidth_low32 v
  | dstate => exact setWidth_dstateWord_low3 v
  | _ => rfl

/-! ## The bytes of a buffer (R41) -/

theorem readBytes_eq_some_iff_readByte {m : Memory} (h : m.wf) {n : Nat} {data : List Byte} :
    readBytes m n = some data ↔ data.length = n ∧ ∀ k < data.length, readByte m k = data[k]? := by
  have reads (k : Nat) (hk : k < (writtenPrefix m n).length) : (writtenPrefix m n)[k]? = readByte m k := by
    simpa [writtenPrefix] using runFrom_getElem? h (fun c _ => Nat.zero_le c.1) k hk
  rw [readBytes_eq_some]
  constructor
  · rintro ⟨rfl, hlen⟩
    exact ⟨hlen, fun k hk => (reads k hk).symm⟩
  · rintro ⟨rfl, hdata⟩
    have hlen : (writtenPrefix m data.length).length = data.length := by
      refine Nat.le_antisymm (runFrom_length_le ..) (Nat.not_lt.1 fun hlt => ?_)
      have hnone : readByte m (writtenPrefix m data.length).length = none := by
        simpa [writtenPrefix] using readByte_after_runFrom h (fun c _ => Nat.zero_le c.1) hlt
      simp [hdata _ hlt, hlt] at hnone
    refine ⟨List.ext_getElem? fun k => ?_, rfl⟩
    rcases Nat.lt_or_ge k data.length with hk | hk
    · rw [reads k (hk.trans_eq hlen.symm), hdata k hk]
    · rw [List.getElem?_eq_none (hlen.trans_le hk), List.getElem?_eq_none hk]

/-- Settles O10: the law of `readBytes`, at `IBUF` and `IN_LEN`. -/
theorem chunkIsTheBytesOfTheBuffer : Obligations.ChunkIsTheBytesOfTheBuffer :=
  fun _ _ hwf => readBytes_eq_some_iff_readByte hwf

/-! ## What a command can answer

Every command either completes, having written result registers and `OBUF` alone, or takes the fault entry with one of its
codes. The invariants of all commands are read off `exec_next`. -/

/-- `s` with every result of `u`: the registers a completing command may write (R15, R17, R19 to R22, R26 to R30) and
`OBUF` (R31). -/
def putResults (u s : State) : State :=
  { s with r := u.r, outLen := u.outLen, col := u.col, dstate := u.dstate, dend := u.dend, consumed := u.consumed,
           apart := u.apart, atotal := u.atotal, fcrc := u.fcrc, pcrc := u.pcrc, maxlen := u.maxlen, obuf := u.obuf }

@[simp] theorem putResults_status (u s : State) : (putResults u s).status = s.status := rfl

theorem exists_complete_putResults {s t u : State} (h : t = complete u) (hu : u = putResults u s) :
    ∃ u, t = complete (putResults u s) := ⟨u, by rw [← hu, h]⟩

/-- The inversion of `exec`: what the inversions of the thirteen commands have in common. -/
theorem exec_next {i : Instr} {s t : State} (h : exec i s = .next t) :
    (∃ u, t = complete (putResults u s)) ∨ ∃ c, codeNumber c ∈ codesOf i ∧ t = raise c s := by
  cases i with
  | crcUpd =>
    rcases execCrcUpd_next h with ⟨data, -, h⟩ | h
    · exact .inl (exists_complete_putResults h rfl)
    · exact .inr ⟨.eRange, by decide, h⟩
  | crcComb => exact .inl (exists_complete_putResults (execCrcComb_next h) rfl)
  | crcZeros => exact .inl (exists_complete_putResults (execCrcZeros_next h) rfl)
  | crcUnzero => exact .inl (exists_complete_putResults (execCrcUnzero_next h) rfl)
  | crcMul => exact .inl (exists_complete_putResults (execCrcMul_next h) rfl)
  | crcPow2 => exact .inl (exists_complete_putResults (execCrcPow2_next h) rfl)
  | crcPow256 => exact .inl (exists_complete_putResults (execCrcPow256_next h) rfl)
  | encBlk isEnd =>
    rcases execEncBlk_next h with ⟨data, -, -, -, h⟩ | h | h
    · exact .inl (exists_complete_putResults h rfl)
    · exact .inr ⟨.eRange, by simp [codesOf, codeNumber], h⟩
    · exact .inr ⟨.eOvf, by simp [codesOf, codeNumber], h⟩
  | encMaxlen =>
    rcases execEncMaxlen_next h with ⟨-, -, h⟩ | h
    · exact .inl (exists_complete_putResults h rfl)
    · exact .inr ⟨.eRange, by decide, h⟩
  | decBlk isRaw =>
    rcases execDecBlk_next h with ⟨data, s0, -, -, -, h⟩ | h | h | h
    · exact .inl (exists_complete_putResults h rfl)
    · exact .inr ⟨.eRange, by simp [codesOf, codeNumber], h⟩
    · exact .inr ⟨.eState, by simp [codesOf, codeNumber], h⟩
    · exact .inr ⟨.eOvf, by simp [codesOf, codeNumber], h⟩
  | decInc =>
    rcases execDecInc_next h with ⟨q, s0, -, -, -, -, h⟩ | h | h | h
    · exact .inl (exists_complete_putResults h rfl)
    · exact .inr ⟨.eRange, by decide, h⟩
    · exact .inr ⟨.eState, by decide, h⟩
    · exact .inr ⟨.eOvf, by decide, h⟩
  | frmSingle =>
    rcases execFrmSingle_next h with ⟨data, name, -, -, -, -, h⟩ | h | h | h
    · exact .inl (exists_complete_putResults h rfl)
    · exact .inr ⟨.eRange, by decide, h⟩
    · exact .inr ⟨.eArg, by decide, h⟩
    · exact .inr ⟨.eOvf, by decide, h⟩
  | frmMulti =>
    rcases execFrmMulti_next h with ⟨data, name, art, -, -, -, -, -, -, h⟩ | h | h | h
    · exact .inl (exists_complete_putResults h rfl)
    · exact .inr ⟨.eRange, by decide, h⟩
    · exact .inr ⟨.eArg, by decide, h⟩
    · exact .inr ⟨.eOvf, by decide, h⟩

@[simp] theorem statusWord_reserved (y : Bool) (c : BitVec 8) : (statusWord y c).extractLsb' 9 23 = 0 := by
  refine BitVec.eq_of_getLsbD_eq fun i hi => ?_
  rw [statusWord, BitVec.getLsbD_extractLsb', BitVec.getLsbD_append, if_neg (by omega), BitVec.getLsbD_append,
    if_neg (by omega)]
  simp

theorem zero_mem_codesOf (i : Instr) : 0 ∈ codesOf i := by cases i <;> simp [codesOf]

/-- Settles O54: completion leaves code 0 and the sticky bit, the fault entry leaves a code of the command and 1. -/
theorem statusAfterEveryCommand : Obligations.StatusAfterEveryCommand := by
  intro i s t h
  rcases exec_next h with ⟨u, rfl⟩ | ⟨c, hc, rfl⟩
  · refine ⟨?_, statusWord_reserved .., fun _ => statusSticky_complete _,
      fun hne => absurd (statusCode_complete _) hne⟩
    rw [statusCode_complete]
    exact zero_mem_codesOf i
  · rw [statusCode_raise]
    exact ⟨hc, statusWord_reserved .., fun h0 => absurd h0 (codeNumber_ne_zero c), fun _ => statusSticky_raise ..⟩

/-- Settles O55: neither the results of a completing command nor the fault entry touch a host operand. -/
theorem commandsNeverWriteHostOperands : Obligations.CommandsNeverWriteHostOperands := by
  intro i s t h
  rcases exec_next h with ⟨u, rfl⟩ | ⟨c, -, rfl⟩
  · exact ⟨by simp [readReg, putResults], fun _ => rfl, fun _ => rfl, rfl, rfl, rfl⟩
  · exact ⟨by simp [readReg], fun _ => rfl, fun _ => rfl, rfl, rfl, rfl⟩

/-! ## No command reads `STATUS` or `DEND` (R34)

Two results are alike when they are the same refusal, or next states that differ in the two flag registers alone and have
the same code. Each operation a command is made of takes alike continuations to alike results. -/

/-- `s` with any `STATUS` and any `DEND`. -/
def withFlags (w e : Word) (s : State) : State := { s with status := w, dend := e }

/-- Results that differ in `STATUS` and `DEND` alone, with the same code. -/
inductive Alike : Result → Result → Prop where
  | refused (x : Refusal) : Alike (.refused x) (.refused x)
  | next {t u : State} (same : withFlags 0 0 u = withFlags 0 0 t)
      (code : statusCode u.status = statusCode t.status) : Alike (.next t) (.next u)

theorem alike_refused {x : Refusal} {r : Result} (h : Alike (.refused x) r) : r = .refused x := by
  cases h
  rfl

theorem alike_next {t : State} {r : Result} (h : Alike (.next t) r) :
    ∃ u, r = .next u ∧ withFlags 0 0 u = withFlags 0 0 t ∧ statusCode u.status = statusCode t.status := by
  cases h with
  | next same code => exact ⟨_, rfl, same, code⟩

section
variable (w e : Word) (s : State)

theorem alike_raise (c : FaultCode) : Alike (.next (raise c s)) (.next (raise c (withFlags w e s))) :=
  .next rfl rfl

theorem alike_complete {t u : State} (same : withFlags 0 0 u = withFlags 0 0 t) :
    Alike (.next (complete t)) (.next (complete u)) :=
  .next same (by simp)

theorem alike_require (p : Prop) [Decidable p] (c : FaultCode) {k k' : Result} (h : Alike k k') :
    Alike (require p c s k) (require p c (withFlags w e s) k') := by
  unfold require
  split
  · exact h
  · exact alike_raise w e s c

theorem alike_withBytes (b : Config.Buf) (o : Option (List Byte)) {k k' : List Byte → Result}
    (h : ∀ d, Alike (k d) (k' d)) : Alike (withBytes b o k) (withBytes b o k') := by
  cases o with
  | none => exact .refused _
  | some d => exact h d

theorem alike_deliver (out : List Byte) {t u : State} (same : withFlags 0 0 u = withFlags 0 0 t) :
    Alike (deliver s out t) (deliver (withFlags w e s) out u) :=
  alike_require w e s _ _ (alike_complete (congrArg (putOutput out) same))

theorem alike_withInState {k k' : DecState → Result} (h : ∀ s0, Alike (k s0) (k' s0)) :
    Alike (withInState s k) (withInState (withFlags w e s) k') := by
  have hstate : inState (withFlags w e s) = inState s := rfl
  unfold withInState
  rw [hstate]
  split
  · exact h _
  · exact alike_raise w e s _

theorem alike_withFramerOperands {k k' : List Byte → List Byte → Result}
    (h : ∀ data name, Alike (k data name) (k' data name)) :
    Alike (withFramerOperands s k) (withFramerOperands (withFlags w e s) k') :=
  alike_require w e s _ _ <| alike_require w e s _ _ <| alike_require w e s _ _ <|
    alike_withBytes .ibuf (chunk s) fun data => alike_withBytes .nbuf (filename s) fun name => h data name

theorem alike_putR (v : Word) : Alike (putR v s) (putR v (withFlags w e s)) := alike_complete rfl

theorem alike_execCrcUpd : Alike (execCrcUpd s) (execCrcUpd (withFlags w e s)) :=
  alike_require w e s _ _ <| alike_withBytes .ibuf (chunk s) fun _ => alike_putR w e s _

theorem alike_execEncBlk (isEnd : Bool) : Alike (execEncBlk isEnd s) (execEncBlk isEnd (withFlags w e s)) :=
  alike_require w e s _ _ <| alike_require w e s _ _ <| alike_require w e s _ _ <|
    alike_withBytes .ibuf (chunk s) fun _ => alike_deliver w e s _ rfl

theorem alike_execEncMaxlen : Alike (execEncMaxlen s) (execEncMaxlen (withFlags w e s)) :=
  alike_require w e s _ _ <| alike_require w e s _ _ <| alike_complete rfl

theorem alike_execDecBlk (isRaw : Bool) : Alike (execDecBlk isRaw s) (execDecBlk isRaw (withFlags w e s)) :=
  alike_require w e s _ _ <| alike_withInState w e s fun _ =>
    alike_withBytes .ibuf (chunk s) fun _ => alike_deliver w e s _ rfl

theorem alike_execDecInc : Alike (execDecInc s) (execDecInc (withFlags w e s)) := by
  refine alike_require w e s _ _ <| alike_withInState w e s fun s0 => ?_
  have hresult : incResult (withFlags w e s) s0 = incResult s s0 := rfl
  rw [hresult]
  cases incResult s s0 with
  | none => exact .refused _
  | some q => exact alike_deliver w e s _ rfl

theorem alike_execFrmSingle : Alike (execFrmSingle s) (execFrmSingle (withFlags w e s)) :=
  alike_withFramerOperands w e s fun _ _ => alike_require w e s _ _ <| alike_deliver w e s _ rfl

theorem alike_execFrmMulti : Alike (execFrmMulti s) (execFrmMulti (withFlags w e s)) := by
  refine alike_withFramerOperands w e s fun data name => alike_require w e s _ _ ?_
  have hselected : selectedArticle (withFlags w e s) data name = selectedArticle s data name := rfl
  rw [hselected]
  cases selectedArticle s data name with
  | none => exact alike_raise w e s _
  | some art => exact alike_deliver w e s _ rfl

theorem alike_exec (i : Instr) : Alike (exec i s) (exec i (withFlags w e s)) := by
  cases i with
  | crcUpd => exact alike_execCrcUpd w e s
  | crcComb | crcZeros | crcUnzero | crcMul | crcPow2 | crcPow256 => exact alike_putR w e s _
  | encBlk isEnd => exact alike_execEncBlk w e s isEnd
  | encMaxlen => exact alike_execEncMaxlen w e s
  | decBlk isRaw => exact alike_execDecBlk w e s isRaw
  | decInc => exact alike_execDecInc w e s
  | frmSingle => exact alike_execFrmSingle w e s
  | frmMulti => exact alike_execFrmMulti w e s

end

/-- Settles O58: the two runs are alike, by the operations each command is made of. -/
theorem noCommandReadsTheFlags : Obligations.NoCommandReadsTheFlags := by
  intro i s w e
  have h := alike_exec w e s i
  exact ⟨fun x hx => alike_refused (hx ▸ h), fun t ht => alike_next (ht ▸ h)⟩

end Sys2Proof.Machine
end

section
/-! PROOFS. The family 20_memory.md: the host's access to the buffers, the refusal of bytes that hold no value, and the
invariant `State.Good` of every step. -/

namespace Sys2Proof.Machine

open Sys2Proof.Config (Buf)

/-! ## One step (R50) -/

theorem step_of_script_nil {s : State} (h : s.script = []) : step s = .next s := by simp [step, h]

theorem step_of_script_cons {s : State} {act : HostAction} {rest : List HostAction} (h : s.script = act :: rest) :
    step s = perform act (takeAction rest s) := by simp [step, h]

/-- Settles O2: the two cases of the script. -/
theorem stepTakesTheNextHostAction : Obligations.StepTakesTheNextHostAction :=
  ⟨fun _ => step_of_script_nil, fun _ _ _ => step_of_script_cons⟩

/-! ## Host writes and reads of a buffer (R42) -/

/-- `s` with the byte `v` at index `i` of buffer `b`, for the two buffers a host can write. -/
def storeByte (b : Buf) (i : Nat) (v : Byte) (s : State) : State :=
  match b with
  | .ibuf => { s with ibuf := writeByte s.ibuf i v }
  | .nbuf => { s with nbuf := writeByte s.nbuf i v }
  | .obuf => s

theorem perform_bufWrite {b : Buf} {i : Nat} {s : State} (hb : b ≠ .obuf) (hi : i < s.cfg.size b) (v : Byte) :
    perform (.bufWrite b i v) s = .next (storeByte b i v s) := by
  cases b with
  | ibuf => exact if_pos hi
  | nbuf => exact if_pos hi
  | obuf => exact absurd rfl hb

theorem perform_bufWrite_obuf (i : Nat) (v : Byte) (s : State) :
    perform (.bufWrite .obuf i v) s = .refused .obufWrittenByHost := rfl

theorem perform_bufWrite_of_ge {b : Buf} {i : Nat} {s : State} (hb : b ≠ .obuf) (hi : s.cfg.size b ≤ i) (v : Byte) :
    perform (.bufWrite b i v) s = .refused (.noSuchIndex b i) := by
  cases b with
  | ibuf => exact if_neg (Nat.not_lt.2 hi)
  | nbuf => exact if_neg (Nat.not_lt.2 hi)
  | obuf => exact absurd rfl hb

theorem perform_bufRead {b : Buf} {i : Nat} {v : Byte} {s : State} (hi : i < s.cfg.size b)
    (hv : readByte (buffer s b) i = some v) :
    perform (.bufRead b i) s = .next { s with replies := .byte v :: s.replies } := by
  simp [perform, hostBufRead, hi, hv]

theorem perform_bufRead_unwritten {b : Buf} {i : Nat} {s : State} (hi : i < s.cfg.size b)
    (hv : readByte (buffer s b) i = none) : perform (.bufRead b i) s = .refused (.unwrittenByte b) := by
  simp [perform, hostBufRead, hi, hv]

theorem perform_bufRead_of_ge {b : Buf} {i : Nat} {s : State} (hi : s.cfg.size b ≤ i) :
    perform (.bufRead b i) s = .refused (.noSuchIndex b i) := if_neg (Nat.not_lt.2 hi)

theorem buffer_storeByte_same {b : Buf} (hb : b ≠ .obuf) (i : Nat) (v : Byte) (s : State) :
    buffer (storeByte b i v s) b = writeByte (buffer s b) i v := by
  cases b with
  | ibuf | nbuf => rfl
  | obuf => exact absurd rfl hb

theorem buffer_storeByte_of_ne {b b' : Buf} (h : b' ≠ b) (i : Nat) (v : Byte) (s : State) :
    buffer (storeByte b i v s) b' = buffer s b' := by
  cases b with
  | obuf => rfl
  | ibuf =>
    cases b' with
    | ibuf => exact absurd rfl h
    | obuf | nbuf => rfl
  | nbuf =>
    cases b' with
    | nbuf => exact absurd rfl h
    | ibuf | obuf => rfl

theorem readByte_storeByte_other {b b' : Buf} {i j : Nat} (hb : b ≠ .obuf) (h : ¬(b' = b ∧ j = i)) (v : Byte)
    (s : State) : readByte (buffer (storeByte b i v s) b') j = readByte (buffer s b') j := by
  by_cases hbb : b' = b
  · subst hbb
    rw [buffer_storeByte_same hb, readByte_writeByte_other _ v fun hj => h ⟨rfl, hj⟩]
  · rw [buffer_storeByte_of_ne hbb]

theorem readReg_storeByte (b : Buf) (i : Nat) (v : Byte) (s : State) (reg : Reg) :
    readReg (storeByte b i v s) reg = readReg s reg := by
  cases b <;> cases reg <;> rfl

theorem samePort_storeByte (b : Buf) (i : Nat) (v : Byte) (s : State) : SamePort s (storeByte b i v s) := by
  cases b <;> exact ⟨rfl, rfl, rfl⟩

/-- Settles O7: the write is `storeByte`, and the read puts the stored byte in front of the replies. -/
theorem bufferWriteThenReadReturnsTheByte : Obligations.BufferWriteThenReadReturnsTheByte := by
  intro s b i v hb hi
  obtain ⟨hcfg, -, hreplies⟩ := samePort_storeByte b i v s
  have hread : readByte (buffer (storeByte b i v s) b) i = some v := by
    rw [buffer_storeByte_same hb, readByte_writeByte_same]
  exact ⟨_, _, perform_bufWrite hb hi v, perform_bufRead (hcfg ▸ hi) hread, by rw [hreplies],
    fun b' j h => readByte_storeByte_other hb h v s, fun reg _ => readReg_storeByte b i v s reg,
    samePort_storeByte b i v s, fun _ _ => readReg_withReplies .., fun b' j => by rw [buffer_withReplies]⟩

/-! ## Actions with no meaning (R32, R42; 93 U9) -/

theorem regOfNumber_eq_none_of_ge {n : Nat} (h : 20 ≤ n) : regOfNumber n = none :=
  Option.eq_none_iff_forall_ne_some.2 fun reg hreg => Nat.not_lt.2 h ((exists_regOfNumber_iff n).1 ⟨reg, hreg⟩)

theorem perform_refused_of_not_wf {s : State} {act : HostAction} (h : act.wf s.cfg = false) :
    ∃ e, perform act s = .refused e := by
  cases act with
  | regWrite n v =>
    have hn : 20 ≤ n := by simpa [HostAction.wf] using h
    exact ⟨.noSuchRegister n, by simp [perform, hostRegWrite, regOfNumber_eq_none_of_ge hn]⟩
  | regRead n =>
    have hn : 20 ≤ n := by simpa [HostAction.wf] using h
    exact ⟨.noSuchRegister n, by simp [perform, hostRegRead, regOfNumber_eq_none_of_ge hn]⟩
  | bufWrite b i v =>
    by_cases hb : b = .obuf
    · exact ⟨_, hb ▸ perform_bufWrite_obuf i v s⟩
    · have hi : s.cfg.size b ≤ i := by simpa [HostAction.wf, hb] using h
      exact ⟨_, perform_bufWrite_of_ge hb hi v⟩
  | bufRead b i =>
    have hi : s.cfg.size b ≤ i := by simpa [HostAction.wf] using h
    exact ⟨_, perform_bufRead_of_ge hi⟩
  | issue w => cases h
  | reset => cases h

theorem perform_next_of_wf {s : State} {act : HostAction} (h : act.wf s.cfg = true) (hissue : ∀ w, act ≠ .issue w)
    (hwritten : ∀ b i, act = .bufRead b i → readByte (buffer s b) i ≠ none) : ∃ t, perform act s = .next t := by
  cases act with
  | regWrite n v =>
    have hn : n < 20 := by simpa [HostAction.wf] using h
    obtain ⟨reg, hreg⟩ := (exists_regOfNumber_iff n).2 hn
    exact ⟨_, perform_regWrite hreg v s⟩
  | regRead n =>
    have hn : n < 20 := by simpa [HostAction.wf] using h
    obtain ⟨reg, hreg⟩ := (exists_regOfNumber_iff n).2 hn
    exact ⟨_, perform_regRead hreg s⟩
  | bufWrite b i v =>
    have hbi : b ≠ .obuf ∧ i < s.cfg.size b := by simpa [HostAction.wf] using h
    exact ⟨_, perform_bufWrite hbi.1 hbi.2 v⟩
  | bufRead b i =>
    have hi : i < s.cfg.size b := by simpa [HostAction.wf] using h
    obtain ⟨v, hv⟩ := Option.ne_none_iff_exists'.1 (hwritten b i rfl)
    exact ⟨_, perform_bufRead hi hv⟩
  | issue w => exact absurd rfl (hissue w)
  | reset => exact ⟨_, rfl⟩

/-- Settles O9: `HostAction.wf` says which actions are answered, and a read only adds its byte to the replies. -/
theorem actionsWithoutMeaningAreRefused : Obligations.ActionsWithoutMeaningAreRefused := by
  refine ⟨fun _ _ => perform_refused_of_not_wf, fun _ _ => perform_next_of_wf, fun s b i v hi hv => ?_⟩
  exact ⟨_, perform_bufRead hi hv, rfl, fun _ _ => readReg_withReplies .., fun b' j => by rw [buffer_withReplies], rfl,
    rfl⟩

/-! ## Bytes that hold no value (R48) -/

theorem readBytes_eq_none_of_unwritten {m : Memory} (h : m.wf) {n k : Nat} (hk : k < n) (hnone : readByte m k = none) :
    readBytes m n = none := by
  refine Option.eq_none_iff_forall_ne_some.2 fun data hdata => ?_
  obtain ⟨rfl, hread⟩ := (readBytes_eq_some_iff_readByte h).1 hdata
  simp [hread k hk, hk] at hnone

theorem writtenPrefix_length_lt_of_unwritten {m : Memory} (h : m.wf) {n k : Nat} (hk : k < n)
    (hnone : readByte m k = none) : (writtenPrefix m n).length < n := by
  refine Nat.lt_of_le_of_ne (runFrom_length_le ..) fun hlen => ?_
  have hsome : readBytes m n = some (writtenPrefix m n) := readBytes_eq_some.2 ⟨rfl, hlen⟩
  rw [readBytes_eq_none_of_unwritten h hk hnone] at hsome
  cases hsome

theorem decStateOfBits_eq_none_iff (v : BitVec 3) : decStateOfBits v = none ↔ v = 7 := by
  revert v
  decide

theorem withInState_of_some {s : State} {s0 : DecState} (h : inState s = some s0) (k : DecState → Result) :
    withInState s k = k s0 := by simp [withInState, h]

/-! The readers of `IBUF` in a state whose chunk fits and holds an unwritten byte -/

section
variable {s : State} (hlen : s.inLen.toNat ≤ s.cfg.ibufSize) (hchunk : chunk s = none)
include hlen

theorem execDecInc_unwritten {s0 : DecState} (hstate : inState s = some s0)
    (hfront : (chunkFront s).length < s.inLen.toNat)
    (hmarker : (decodeIncremental (chunkFront s) s0).marker = .none) :
    execDecInc s = .refused (.unwrittenByte .ibuf) := by
  have hresult : incResult s s0 = none := by simp [incResult, hmarker, Nat.ne_of_lt hfront]
  rw [execDecInc, require_of_true hlen, withInState_of_some hstate, hresult]

include hchunk

theorem execCrcUpd_unwritten : execCrcUpd s = .refused (.unwrittenByte .ibuf) := by
  rw [execCrcUpd, require_of_true hlen, hchunk, withBytes_none]

theorem execEncBlk_unwritten (isEnd : Bool) (hcol : s.col.toNat < s.line.toNat) :
    execEncBlk isEnd s = .refused (.unwrittenByte .ibuf) := by
  rw [execEncBlk, require_of_true hlen, require_of_true (Nat.one_le_of_lt hcol), require_of_true hcol, hchunk,
    withBytes_none]

theorem execDecBlk_unwritten (isRaw : Bool) {s0 : DecState} (hstate : inState s = some s0) :
    execDecBlk isRaw s = .refused (.unwrittenByte .ibuf) := by
  rw [execDecBlk, require_of_true hlen, withInState_of_some hstate, hchunk, withBytes_none]

theorem withFramerOperands_chunk_unwritten (hname : s.nameLen.toNat ≤ s.cfg.nbufSize) (hline : 1 ≤ s.line.toNat)
    (k : List Byte → List Byte → Result) : withFramerOperands s k = .refused (.unwrittenByte .ibuf) := by
  rw [withFramerOperands, require_of_true hlen, require_of_true hname, require_of_true hline, hchunk, withBytes_none]

end

theorem withFramerOperands_name_unwritten {s : State} {data : List Byte} (hdata : ChunkIs s data)
    (hname : s.nameLen.toNat ≤ s.cfg.nbufSize) (hline : 1 ≤ s.line.toNat) (hnone : filename s = none)
    (k : List Byte → List Byte → Result) : withFramerOperands s k = .refused (.unwrittenByte .nbuf) := by
  rw [withFramerOperands, require_of_true hdata.1, require_of_true hname, require_of_true hline, hdata.2,
    withBytes_some, hnone, withBytes_none]

/-- Settles O8: an unwritten byte makes the chunk or the filename no value, and each reader refuses that. -/
theorem unwrittenByteIsRefused : Obligations.UnwrittenByteIsRefused := by
  refine ⟨fun _ _ _ => perform_bufRead_unwritten, ?chunk, ?name⟩
  case chunk =>
    intro s k isEnd isRaw hwf hlen hk hnone
    have hchunk : chunk s = none := readBytes_eq_none_of_unwritten hwf hk hnone
    refine ⟨execCrcUpd_unwritten hlen hchunk, execEncBlk_unwritten hlen hchunk isEnd, fun h7 => ?_, fun s0 h0 hm => ?_,
      fun hname hline => ?_⟩
    · obtain ⟨s0, h0⟩ := Option.ne_none_iff_exists'.1 (mt (decStateOfBits_eq_none_iff _).1 h7)
      exact execDecBlk_unwritten hlen hchunk isRaw h0
    · exact execDecInc_unwritten hlen h0 (writtenPrefix_length_lt_of_unwritten hwf hk hnone) hm
    · exact ⟨withFramerOperands_chunk_unwritten hlen hchunk hname hline _,
        withFramerOperands_chunk_unwritten hlen hchunk hname hline _⟩
  case name =>
    intro s data k hdata hwf hname hline hk hnone
    have hfilename : filename s = none := readBytes_eq_none_of_unwritten hwf hk hnone
    exact ⟨withFramerOperands_name_unwritten hdata hname hline hfilename _,
      withFramerOperands_name_unwritten hdata hname hline hfilename _⟩

/-! ## The invariant `State.Good`

Each named update of the state keeps it; a command that completes is a chain of such updates, and the bounds it needs
come from the decoder (`CONSUMED`) and the framer (`APART`, `ATOTAL`). -/

/-- A number below 2^64 goes into a length register whole. -/
theorem toNat_ofNat_of_lt {n : Nat} (h : n < 2 ^ 64) : (BitVec.ofNat 64 n).toNat = n :=
  (BitVec.toNat_ofNat n 64).trans (Nat.mod_eq_of_lt h)

/-! The updates -/

/-- `s` with everything of `u` that `State.Good` says nothing about. -/
def putUnbounded (u s : State) : State :=
  { s with a := u.a, b := u.b, n := u.n, r := u.r, inLen := u.inLen, line := u.line, col := u.col,
           nameLen := u.nameLen, psize := u.psize, part := u.part, fcrc := u.fcrc, pcrc := u.pcrc,
           maxlen := u.maxlen, script := u.script, replies := u.replies }

theorem good_of_eq_putUnbounded {s u : State} (hu : u = putUnbounded u s) (h : s.Good) : u.Good := by
  rw [hu]
  exact ⟨h.params, { h.buffers with }, { h.fields with }, { h.results with }⟩

theorem codeNumber_le_five (c : FaultCode) : (codeNumber c).toNat ≤ 5 := by cases c <;> decide

theorem good_withStatusWord {s : State} (h : s.Good) (y : Bool) {c : BitVec 8} (hc : c.toNat ≤ 5) :
    State.Good { s with status := statusWord y c } :=
  ⟨h.params, { h.buffers with },
    { h.fields with statusReserved := statusWord_reserved y c, statusCode := by rwa [statusCode_statusWord] },
    { h.results with }⟩

theorem good_raise {s : State} (c : FaultCode) (h : s.Good) : (raise c s).Good :=
  good_withStatusWord h true (codeNumber_le_five c)

theorem good_complete {s : State} (h : s.Good) : (complete s).Good :=
  good_withStatusWord h (statusSticky s.status) (Nat.zero_le 5)

@[simp] theorem dstateWord_reserved (v : BitVec 3) : (dstateWord v).extractLsb' 3 29 = 0 := by
  refine BitVec.eq_of_getLsbD_eq fun i hi => ?_
  rw [dstateWord, BitVec.getLsbD_extractLsb', BitVec.getLsbD_append, if_neg (by omega)]
  simp

theorem good_withDstateWord {s : State} (h : s.Good) (v : BitVec 3) : State.Good { s with dstate := dstateWord v } :=
  ⟨h.params, { h.buffers with }, { h.fields with dstateReserved := dstateWord_reserved v }, { h.results with }⟩

theorem dendWord_reserved (e : EndMarker) : (dendWord e).extractLsb' 2 30 = 0 := by cases e <;> decide

theorem dendWord_ne_three (e : EndMarker) : dendWord e ≠ 3 := by cases e <;> decide

theorem good_putDecode {s : State} (h : s.Good) (d : DecState) (e : EndMarker) {k : Len}
    (hk : k.toNat ≤ s.cfg.ibufSize) : (putDecode d e k s).Good :=
  ⟨h.params, { h.buffers with },
    { h.fields with
      dstateReserved := dstateWord_reserved _, dendReserved := dendWord_reserved e, dendValue := dendWord_ne_three e },
    { h.results with consumed := hk }⟩

theorem good_putOutput {s : State} (h : s.Good) {out : List Byte} (hfits : out.length ≤ s.cfg.obufSize) :
    (putOutput out s).Good := by
  obtain ⟨-, ⟨-, hsize⟩, -⟩ := h.params
  have hlen : (BitVec.ofNat 64 out.length).toNat = out.length := toNat_ofNat_of_lt (by omega)
  refine ⟨h.params, { h.buffers with obuf := within_bytesFrom hfits, output := fun i => ?_ }, { h.fields with },
    { h.results with }⟩
  simp [readByte_bytesFrom, hlen]

theorem good_putArticle {s : State} (h : s.Good) {art : Article} (hpart : art.partNumber ≤ art.totalParts)
    (htotal : art.totalParts ≤ s.cfg.ibufSize) : (putArticle art s).Good := by
  obtain ⟨⟨-, hsize⟩, -, -⟩ := h.params
  have hpartNat : (BitVec.ofNat 64 art.partNumber).toNat = art.partNumber := toNat_ofNat_of_lt (by omega)
  have htotalNat : (BitVec.ofNat 64 art.totalParts).toNat = art.totalParts := toNat_ofNat_of_lt (by omega)
  exact ⟨h.params, { h.buffers with }, { h.fields with },
    { h.results with
      apart := by simpa only [putArticle, hpartNat, htotalNat] using hpart
      atotal := by simpa only [putArticle, htotalNat] using htotal }⟩

/-! The bounds -/

theorem decodeIncremental_consumed_le (data : List Byte) (s0 : DecState) :
    (decodeIncremental data s0).consumed ≤ data.length := by
  induction data generalizing s0 with
  | nil => exact Nat.le_refl 0
  | cons c rest ih =>
    rw [decodeIncremental]
    split
    · exact Nat.succ_le_succ (ih _)
    · exact Nat.succ_le_succ (Nat.zero_le _)

theorem incResult_consumed_le {s : State} {s0 : DecState} {q : IncResult} (h : incResult s s0 = some q) :
    q.consumed ≤ s.inLen.toNat := by
  unfold incResult at h
  split at h
  · cases h
    exact (decodeIncremental_consumed_le _ s0).trans (runFrom_length_le ..)
  · cases h

theorem ChunkIs.length_le {s : State} {data : List Byte} (h : ChunkIs s data) : data.length ≤ s.cfg.ibufSize := by
  obtain ⟨hlen, hdata⟩ := h
  exact (readBytes_eq_some.1 hdata).2.trans_le hlen

theorem one_le_length_of_validArgs {data name : List Byte} (h : validArgs data name = true) : 1 ≤ data.length := by
  simp only [validArgs, Bool.and_eq_true, decide_eq_true_eq] at h
  exact h.1.1

theorem partCount_le {len partSize : Nat} (hlen : 1 ≤ len) (hsize : 1 ≤ partSize) : partCount len partSize ≤ len := by
  refine Nat.le_of_lt_succ ((Nat.div_lt_iff_lt_mul hsize).2 ?_)
  have hmul : len ≤ len * partSize := Nat.le_mul_of_pos_right len hsize
  rw [Nat.succ_mul]
  omega

theorem partNumber_le_totalParts_of_mem {data name : List Byte} {partSize lineSize : Nat} {art : Article}
    (h : art ∈ multiArticles data name partSize lineSize) : art.partNumber ≤ art.totalParts := by
  unfold multiArticles at h
  split at h
  · cases List.mem_singleton.1 h
    exact Nat.le_refl 1
  · obtain ⟨j, hj, rfl⟩ := List.mem_map.1 h
    exact Nat.succ_le_of_lt (List.mem_range.1 hj)

theorem totalParts_le_of_mem {data name : List Byte} {partSize lineSize : Nat} {art : Article}
    (hdata : 1 ≤ data.length) (hsize : 1 ≤ partSize) (h : art ∈ multiArticles data name partSize lineSize) :
    art.totalParts ≤ data.length := by
  unfold multiArticles at h
  split at h
  · cases List.mem_singleton.1 h
    exact hdata
  · obtain ⟨j, -, rfl⟩ := List.mem_map.1 h
    exact partCount_le hdata hsize

theorem selectedArticle_mem {s : State} {data name : List Byte} {art : Article}
    (h : selectedArticle s data name = some art) : art ∈ multiArticles data name s.psize.toNat s.line.toNat := by
  unfold selectedArticle at h
  split at h
  · exact List.mem_of_getElem? h
  · cases h

theorem one_le_psize_of_signedPsize_pos {s : State} (h : 0 < signedPsize s) : 1 ≤ s.psize.toNat := by
  rw [signedPsize, BitVec.toInt_eq_toNat_cond] at h
  split at h <;> omega

/-! The commands and the host actions -/

theorem exec_keeps_good {i : Instr} {s t : State} (hs : s.Good) (h : exec i s = .next t) : t.Good := by
  cases i with
  | crcUpd =>
    rcases execCrcUpd_next h with ⟨data, -, rfl⟩ | rfl
    · exact good_complete (good_of_eq_putUnbounded rfl hs)
    · exact good_raise _ hs
  | crcComb | crcZeros | crcUnzero | crcMul | crcPow2 | crcPow256 =>
    rw [putR_next h]
    exact good_complete (good_of_eq_putUnbounded rfl hs)
  | encBlk isEnd =>
    rcases execEncBlk_next h with ⟨data, -, -, hfits, rfl⟩ | rfl | rfl
    · exact good_complete (good_putOutput (good_of_eq_putUnbounded rfl hs) hfits)
    all_goals exact good_raise _ hs
  | encMaxlen =>
    rcases execEncMaxlen_next h with ⟨-, -, rfl⟩ | rfl
    · exact good_complete (good_of_eq_putUnbounded rfl hs)
    · exact good_raise _ hs
  | decBlk isRaw =>
    rcases execDecBlk_next h with ⟨data, s0, hchunk, -, hfits, rfl⟩ | rfl | rfl | rfl
    · exact good_complete (good_putOutput (good_putDecode hs _ _ hchunk.1) hfits)
    all_goals exact good_raise _ hs
  | decInc =>
    rcases execDecInc_next h with ⟨q, s0, hlen, -, hq, hfits, rfl⟩ | rfl | rfl | rfl
    · have hle : q.consumed ≤ s.inLen.toNat := incResult_consumed_le hq
      have hnat : (BitVec.ofNat 64 q.consumed).toNat = q.consumed :=
        toNat_ofNat_of_lt (hle.trans_lt s.inLen.isLt)
      exact good_complete (good_putOutput (good_putDecode hs _ _ (hnat.trans_le (hle.trans hlen))) hfits)
    all_goals exact good_raise _ hs
  | frmSingle =>
    rcases execFrmSingle_next h with ⟨data, name, hchunk, -, hvalid, hfits, rfl⟩ | rfl | rfl | rfl
    · have htotal : 1 ≤ s.cfg.ibufSize := (one_le_length_of_validArgs hvalid).trans hchunk.length_le
      exact good_complete (good_putOutput (good_putArticle hs (Nat.le_refl 1) htotal) hfits)
    all_goals exact good_raise _ hs
  | frmMulti =>
    rcases execFrmMulti_next h with ⟨data, name, art, hchunk, -, hvalid, hpsize, hart, hfits, rfl⟩ | rfl | rfl | rfl
    · have hmem := selectedArticle_mem hart
      have htotal : art.totalParts ≤ data.length :=
        totalParts_le_of_mem (one_le_length_of_validArgs hvalid) (one_le_psize_of_signedPsize_pos hpsize) hmem
      exact good_complete (good_putOutput
        (good_putArticle hs (partNumber_le_totalParts_of_mem hmem) (htotal.trans hchunk.length_le)) hfits)
    all_goals exact good_raise _ hs

theorem good_writeReg {s : State} (h : s.Good) (v : Len) (reg : Reg) : (writeReg s v reg).Good := by
  cases reg with
  | status =>
    simp only [writeReg]
    split
    · exact good_withStatusWord h false h.fields.statusCode
    · exact h
  | dstate => exact good_withDstateWord h _
  | r | outLen | dend | consumed | apart | atotal | fcrc | pcrc | maxlen => exact h
  | a | b | n | inLen | line | col | nameLen | psize | part => exact good_of_eq_putUnbounded rfl h

theorem hostBufWrite_keeps_good {b : Buf} {i : Nat} {v : Byte} {s t : State} (hs : s.Good)
    (h : hostBufWrite b i v s = .next t) : t.Good := by
  rcases hostBufWrite_next h with ⟨-, hi, rfl⟩ | ⟨-, hi, rfl⟩
  · exact ⟨hs.params, { hs.buffers with ibuf := within_writeByte hs.buffers.ibuf hi v }, { hs.fields with },
      { hs.results with }⟩
  · exact ⟨hs.params, { hs.buffers with nbuf := within_writeByte hs.buffers.nbuf hi v }, { hs.fields with },
      { hs.results with }⟩

theorem issue_keeps_good {w : Word} {s t : State} (hs : s.Good) (h : issue w s = .next t) : t.Good := by
  rcases issue_next h with ⟨e, -, rfl⟩ | ⟨i, -, hi⟩
  · exact good_raise _ hs
  · exact exec_keeps_good hs hi

theorem within_nil (size : Nat) : Memory.within [] size := ⟨wf_nil, nofun⟩

theorem fieldsGood_reset : FieldsGood State.reset := by constructor <;> decide

/-- Every admissible choice of capacities makes the reset state good. -/
theorem good_hostReset {s : State} (h : s.cfg.wf) : (hostReset s).Good where
  params := h
  buffers := ⟨within_nil _, within_nil _, within_nil _, fun i => by simp [hostReset, State.reset]⟩
  fields := { fieldsGood_reset with }
  results := ⟨Nat.zero_le _, Nat.le_refl _, Nat.zero_le _⟩

theorem perform_keeps_good {act : HostAction} {s t : State} (hs : s.Good) (h : perform act s = .next t) : t.Good := by
  cases act with
  | regWrite n v =>
    obtain ⟨reg, -, rfl⟩ := hostRegWrite_next h
    exact good_writeReg hs v reg
  | regRead n =>
    obtain ⟨reg, -, rfl⟩ := hostRegRead_next h
    exact good_of_eq_putUnbounded rfl hs
  | bufWrite b i v => exact hostBufWrite_keeps_good hs h
  | bufRead b i =>
    obtain ⟨v, -, -, rfl⟩ := hostBufRead_next h
    exact good_of_eq_putUnbounded rfl hs
  | issue w => exact issue_keeps_good hs h
  | reset =>
    cases h
    exact good_hostReset hs.params

/-- Settles O60: every host action keeps the invariant, and taking it from the script touches no field of it. -/
theorem stepKeepsGood : Obligations.StepKeepsGood := by
  intro s t hs h
  rcases step_next h with ⟨-, rfl⟩ | ⟨act, rest, -, hact⟩
  · exact hs
  · exact perform_keeps_good (good_of_eq_putUnbounded rfl hs) hact

end Sys2Proof.Machine
end

section
/-! PROOFS. The family 30_encoding.md: the fields of a command word, the decoder and the encoder, the legal words, and what
`Issue` answers. -/

namespace Sys2Proof

/-! ## The fields of a command word (R61) -/

/-- The three fields of R61 are the whole word. -/
theorem fields_append (w : Word) : rsvField w ++ BitVec.ofBool (flagField w) ++ opcField w = w := by
  have hflag : BitVec.ofBool (flagField w) = w.extractLsb' 8 1 := by
    refine BitVec.eq_of_getLsbD_eq fun i hi => ?_
    obtain rfl : i = 0 := by omega
    simp [flagField]
  rw [hflag, rsvField, opcField, BitVec.extractLsb'_append_extractLsb'_eq_extractLsb' (show 9 = 8 + 1 from rfl),
    BitVec.extractLsb'_append_extractLsb'_eq_extractLsb' (show 8 = 0 + 8 from rfl)]
  exact BitVec.extractLsb'_eq_self

theorem eq_encode_of_fields {w : Word} {i : Instr} (hrsv : rsvField w = 0#23) (hflag : flagField w = flagOf i)
    (hopc : opcField w = opcodeOf i) : w = encode i := by
  rw [← fields_append w, hrsv, hflag, hopc, encode]

/-! ## Decode and encode (R61, R62) -/

theorem Instr.wf_eq_true (i : Instr) : i.wf = true := by cases i <;> rfl

theorem formatF_eq_some {opc : BitVec 8} {f : Bool} {i : Instr} (h : formatF opc f = some i) :
    opc = opcodeOf i ∧ f = flagOf i := by
  unfold formatF at h
  repeat' split at h
  all_goals cases h <;> exact ⟨‹_›, rfl⟩

theorem formatN_eq_some {opc : BitVec 8} {i : Instr} (h : formatN opc = some i) :
    opc = opcodeOf i ∧ flagOf i = false := by
  unfold formatN at h
  repeat' split at h
  all_goals cases h <;> exact ⟨‹_›, rfl⟩

/-- What decodes to a command is its encoding: the decoder has looked at every field. -/
theorem eq_encode_of_decode {w : Word} {i : Instr} (h : decode w = .ok i) : w = encode i := by
  unfold decode at h
  split at h
  · cases h
  · have hrsv : rsvField w = 0#23 := not_not.1 ‹_›
    split at h
    · cases h
      obtain ⟨hopc, hflag⟩ := formatF_eq_some ‹_›
      exact eq_encode_of_fields hrsv hflag hopc
    · split at h
      · obtain ⟨hopc, hflag⟩ := formatN_eq_some ‹_›
        split at h
        · cases h
        · cases h
          exact eq_encode_of_fields hrsv ((Bool.eq_false_of_not_eq_true ‹_›).trans hflag.symm) hopc
      · cases h

theorem decode_encode (i : Instr) : decode (encode i) = .ok i := by
  cases i with
  | encBlk isEnd => cases isEnd <;> rfl
  | decBlk isRaw => cases isRaw <;> rfl
  | _ => rfl

theorem decode_eq_ok_iff {w : Word} {i : Instr} : decode w = .ok i ↔ w = encode i :=
  ⟨eq_encode_of_decode, fun h => h ▸ decode_encode i⟩

/-- Settles O11: a decoded word has the fields of its command, and every command decodes from its word. -/
theorem decodeAndEncodeAgree : Obligations.DecodeAndEncodeAgree := fun _ i =>
  decode_eq_ok_iff.trans (and_iff_left i.wf_eq_true).symm

/-- Settles O13: five words are encodings, three are refused on one field each. -/
theorem sampleWordsDecode : Obligations.SampleWordsDecode :=
  ⟨decode_encode .crcUpd, decode_encode .crcPow256, decode_encode (.encBlk true), decode_encode (.decBlk false),
    decode_encode .frmMulti, rfl, rfl, rfl⟩

/-! ## The fifteen legal words (R62, R63) -/

/-- Every command, the format-F ones with both flags, in the order of R62. -/
def commands : List Instr :=
  [.crcUpd, .crcComb, .crcZeros, .crcUnzero, .crcMul, .crcPow2, .crcPow256, .encBlk false, .encBlk true, .encMaxlen,
    .decBlk false, .decBlk true, .decInc, .frmSingle, .frmMulti]

theorem mem_commands (i : Instr) : i ∈ commands := by
  cases i with
  | encBlk isEnd => cases isEnd <;> decide
  | decBlk isRaw => cases isRaw <;> decide
  | _ => decide

/-- The fifteen words of R62. -/
theorem commands_map_encode : commands.map encode =
    [0x10#32, 0x11#32, 0x12#32, 0x13#32, 0x14#32, 0x15#32, 0x16#32, 0x20#32, 0x120#32, 0x21#32, 0x30#32, 0x130#32,
      0x31#32, 0x40#32, 0x41#32] := rfl

theorem exists_decode_iff_mem {w : Word} : (∃ i, decode w = .ok i) ↔ w ∈ commands.map encode := by
  simp only [decode_eq_ok_iff, List.mem_map, mem_commands, true_and, @eq_comm _ w]

theorem and_fullMask_eq_iff {w m : Word} : w &&& 0xFFFFFFFF#32 = m ↔ w = m := by
  rw [show 0xFFFFFFFF#32 = BitVec.allOnes 32 from rfl, BitVec.and_allOnes]

/-- The mask of a format-F row leaves out the flag alone, so a row matches two words. -/
theorem and_flagMask_eq_iff {w m : Word} (hm : m &&& 0xFFFFFEFF#32 = m) :
    w &&& 0xFFFFFEFF#32 = m ↔ w = m ∨ w = m ||| 0x100#32 := by
  constructor
  · rintro rfl
    have hsplit : w = w &&& 0xFFFFFEFF#32 ||| w &&& BitVec.twoPow 32 8 := by
      rw [← BitVec.and_or_distrib_left]
      exact BitVec.and_allOnes.symm
    rw [BitVec.and_twoPow] at hsplit
    split at hsplit
    · exact .inr hsplit
    · exact .inl (hsplit.trans BitVec.or_zero)
  · rintro (rfl | rfl)
    · exact hm
    · rw [BitVec.and_or_distrib_right, hm]
      exact BitVec.or_zero

theorem legalWord_iff_mem {w : Word} : legalWord w = true ↔ w ∈ commands.map encode := by
  have h20 : w &&& 0xFFFFFEFF#32 = 0x20#32 ↔ w = 0x20#32 ∨ w = 0x120#32 := and_flagMask_eq_iff rfl
  have h30 : w &&& 0xFFFFFEFF#32 = 0x30#32 ↔ w = 0x30#32 ∨ w = 0x130#32 := and_flagMask_eq_iff rfl
  simp [legalWord, opcodeMap, OpRow.selects, commands_map_encode, and_fullMask_eq_iff, h20, h30, or_assoc]

/-- Settles O12: the table's rows and the encodings of the commands are the same fifteen words. -/
theorem legalWordsAreTheFifteen : Obligations.LegalWordsAreTheFifteen := fun _ =>
  ⟨by rw [legalWord_iff_mem, commands_map_encode], exists_decode_iff_mem.trans legalWord_iff_mem.symm⟩

theorem exists_decode_error_of_illegal {w : Word} (h : legalWord w = false) : ∃ e, decode w = .error e := by
  cases hw : decode w with
  | error e => exact ⟨e, rfl⟩
  | ok i =>
    have hlegal : legalWord w = true := legalWord_iff_mem.2 (exists_decode_iff_mem.1 ⟨i, hw⟩)
    exact absurd (hlegal.symm.trans h) nofun

end Sys2Proof

namespace Sys2Proof.Machine

/-! ## What `Issue` answers (R63, R66) -/

theorem issue_of_decode_ok {w : Word} {i : Instr} (h : decode w = .ok i) (s : State) : issue w s = exec i s := by
  simp [issue, h]

theorem issue_encode (i : Instr) (s : State) : issue (encode i) s = exec i s := issue_of_decode_ok (decode_encode i) s

theorem issue_of_illegal {w : Word} (h : legalWord w = false) (s : State) : issue w s = .next (raise .eCmd s) := by
  obtain ⟨e, he⟩ := exists_decode_error_of_illegal h
  simp [issue, he]

/-- Settles O3: taking the action and performing it is `exec` of the decoded command. -/
theorem stepRunsTheDecodedCommand : Obligations.StepRunsTheDecodedCommand := by
  intro s w rest i hscript hdecode _
  rw [step_of_script_cons hscript]
  exact issue_of_decode_ok hdecode _

/-- The fault entry writes `STATUS` and nothing else (R203). -/
theorem readReg_raise {reg : Reg} (h : reg ≠ .status) (c : FaultCode) (s : State) :
    readReg (raise c s) reg = readReg s reg := by
  cases reg with
  | status => exact absurd rfl h
  | _ => rfl

@[simp] theorem buffer_raise (c : FaultCode) (s : State) (b : Config.Buf) : buffer (raise c s) b = buffer s b := by
  cases b <;> rfl

/-- Settles O4: the answer is the fault entry with `E_CMD`. -/
theorem illegalWordFaultsAndChangesOnlyStatus : Obligations.IllegalWordFaultsAndChangesOnlyStatus := by
  intro s w h
  refine ⟨raise .eCmd s, issue_of_illegal h s, statusCode_raise .eCmd s, statusSticky_raise .eCmd s, ?regs, ?bytes,
    rfl, rfl, rfl⟩
  case regs => exact fun reg hreg => readReg_raise (List.ne_of_not_mem_cons hreg) .eCmd s
  case bytes => exact fun b i => by rw [buffer_raise]

/-! ## The flag of `ENC.BLK` (R64, R114) -/

theorem encodeBytes_isEnd (data : List Byte) (lineSize col : Nat) (e e' : Bool) :
    encodeBytes data lineSize col e = encodeBytes data lineSize col e' := by
  induction data generalizing col with
  | nil => rfl
  | cons b rest ih => rw [encodeBytes, encodeBytes, ih]

theorem execEncBlk_isEnd (e e' : Bool) (s : State) : execEncBlk e s = execEncBlk e' s := by
  simp only [execEncBlk, encodeBytes_isEnd _ _ _ e e']

/-- Settles O14: both words run `ENC.BLK`, whose encoder does not look at the flag. -/
theorem endFlagHasNoEffect : Obligations.EndFlagHasNoEffect := fun s =>
  calc issue 0x00000020#32 s
    _ = execEncBlk false s := issue_encode (.encBlk false) s
    _ = execEncBlk true s := execEncBlk_isEnd false true s
    _ = issue 0x00000120#32 s := (issue_encode (.encBlk true) s).symm

end Sys2Proof.Machine
end

section
/-! PROOFS. The family 40_crc.md: CRC words as polynomials over GF(2) modulo `G`, the laws of `mul`, of the powers of x and of
the CRC loop, and the seven commands. -/

namespace Sys2Proof.Machine

open Polynomial (X Monic)

/-! ## Words as polynomials over GF(2) (R81) -/

/-- The coefficients of `v` in its low `k` bits, bit `k - 1` the constant one: what `mulLoop` has still to take. -/
noncomputable def lowPoly (k : Nat) (v : Word) : Polynomial (ZMod 2) :=
  ∑ i ∈ Finset.range k, if v.getLsbD (k - 1 - i) then X ^ i else 0

theorem lowPoly_succ (k : Nat) (v : Word) :
    lowPoly (k + 1) v = (if v.getLsbD k then 1 else 0) + X * lowPoly k v := by
  rw [lowPoly, Finset.sum_range_succ', add_comm, lowPoly, Finset.mul_sum]
  refine congrArg₂ _ (by simp) (Finset.sum_congr rfl fun i _ => ?_)
  rw [show k + 1 - 1 - (i + 1) = k - 1 - i by omega, mul_ite, mul_zero, pow_succ']

theorem polyOf_eq_lowPoly (v : Word) : polyOf v = lowPoly 32 v := rfl

theorem polyOf_coeff (v : Word) {i : Nat} (hi : i < 32) :
    (polyOf v).coeff i = if v.getLsbD (31 - i) then 1 else 0 := by
  have hterm (j : Nat) : (if v.getLsbD (31 - j) then (X : Polynomial (ZMod 2)) ^ j else 0).coeff i =
      if i = j then (if v.getLsbD (31 - j) then 1 else 0) else 0 := by
    split <;> simp [Polynomial.coeff_X_pow]
  simp [polyOf, Polynomial.finsetSum_coeff, hterm, hi]

theorem polyOf_injective : Function.Injective polyOf := by
  intro v w h
  refine BitVec.eq_of_getLsbD_eq fun j hj => ?_
  have hcoeff := congrArg (Polynomial.coeff · (31 - j)) h
  simp only [polyOf_coeff _ (show 31 - j < 32 by omega), show 31 - (31 - j) = j by omega] at hcoeff
  cases hv : v.getLsbD j <;> cases hw : w.getLsbD j <;> simp [hv, hw] at hcoeff ⊢

theorem polyOf_degree_lt (v : Word) : (polyOf v).degree < 32 := by
  refine (Polynomial.degree_sum_le _ _).trans_lt ((Finset.sup_lt_iff (WithBot.bot_lt_coe 32)).2 fun i hi => ?_)
  split
  · rw [Polynomial.degree_X_pow]
    exact_mod_cast Finset.mem_range.1 hi
  · exact Polynomial.degree_zero.trans_lt (WithBot.bot_lt_coe 32)

theorem polyOf_xor (v w : Word) : polyOf (v ^^^ w) = polyOf v + polyOf w := by
  rw [polyOf, polyOf, polyOf, ← Finset.sum_add_distrib]
  refine Finset.sum_congr rfl fun i _ => ?_
  rw [BitVec.getLsbD_xor]
  cases v.getLsbD (31 - i) <;> cases w.getLsbD (31 - i) <;> simp [CharTwo.add_self_eq_zero]

@[simp] theorem polyOf_zero : polyOf 0#32 = 0 := by simp [polyOf]

@[simp] theorem polyOf_polyOne : polyOf polyOne = 1 := by
  simp [polyOf, polyOne, Finset.sum_range_succ]

@[simp] theorem polyOf_polyX : polyOf polyX = X := by
  simp [polyOf, polyX, Finset.sum_range_succ]

/-- A shift right multiplies by x, but for the coefficient of x^31, which it drops. -/
theorem X_mul_polyOf_eq_ushiftRight (v : Word) :
    X * polyOf v = polyOf (v >>> 1) + if v.getLsbD 0 then X ^ 32 else 0 := by
  rw [polyOf, polyOf, Finset.sum_range_succ _ 31, Finset.sum_range_succ' _ 31, mul_add, Finset.mul_sum]
  refine congrArg₂ _ ?_ (by simp [← pow_succ'])
  rw [show (v >>> 1).getLsbD (31 - 0) = false by simp]
  refine (Finset.sum_congr rfl fun i hi => ?_).trans (add_zero _).symm
  have hi := Finset.mem_range.1 hi
  rw [BitVec.getLsbD_ushiftRight, show 1 + (31 - (i + 1)) = 31 - i by omega, mul_ite, mul_zero, pow_succ']

theorem X_mul_polyOf_eq_xtime (v : Word) : X * polyOf v = polyOf (xtime v) + if v.getLsbD 0 then generator else 0 := by
  rw [X_mul_polyOf_eq_ushiftRight, xtime, polyOf_xor, add_assoc]
  refine congrArg _ ?_
  split
  · rw [generator, add_comm, add_assoc, CharTwo.add_self_eq_zero, add_zero]
  · simp

theorem generator_monic : Monic generator := Polynomial.monic_X_pow_add (polyOf_degree_lt poly)

theorem polyOf_degree_lt_generator (v : Word) : (polyOf v).degree < generator.degree := by
  rw [generator, Polynomial.degree_add_eq_left_of_degree_lt (by simpa using polyOf_degree_lt poly),
    Polynomial.degree_X_pow]
  exact polyOf_degree_lt v

/-! ## Words as residues modulo `G`

Equality of words is equality in the ring of polynomials modulo `G`, so each law below is a law of a commutative ring. -/

/-- The residue of `poly(v)` modulo `G`. -/
noncomputable def residue (v : Word) : AdjoinRoot generator := AdjoinRoot.mk generator (polyOf v)

/-- The residue of x. -/
noncomputable def xResidue : AdjoinRoot generator := AdjoinRoot.root generator

theorem polyOf_eq_modByMonic_of_residue {v : Word} {p : Polynomial (ZMod 2)}
    (h : residue v = AdjoinRoot.mk generator p) : polyOf v = p.modByMonic generator :=
  calc polyOf v
    _ = (polyOf v).modByMonic generator :=
      ((Polynomial.modByMonic_eq_self_iff generator_monic).2 (polyOf_degree_lt_generator v)).symm
    _ = p.modByMonic generator :=
      Polynomial.modByMonic_eq_of_dvd_sub generator_monic (AdjoinRoot.mk_eq_mk.1 h)

theorem residue_injective : Function.Injective residue := fun _ _ h =>
  polyOf_injective ((polyOf_eq_modByMonic_of_residue h).trans (polyOf_eq_modByMonic_of_residue rfl).symm)

@[simp] theorem residue_xor (v w : Word) : residue (v ^^^ w) = residue v + residue w := by
  rw [residue, polyOf_xor, map_add, residue, residue]

@[simp] theorem residue_zero : residue 0#32 = 0 := by rw [residue, polyOf_zero, map_zero]

@[simp] theorem residue_polyOne : residue polyOne = 1 := by rw [residue, polyOf_polyOne, map_one]

@[simp] theorem residue_polyX : residue polyX = xResidue := by rw [residue, polyOf_polyX, AdjoinRoot.mk_X, xResidue]

/-- R82: `xtime` is multiplication by x modulo `G`. -/
@[simp] theorem residue_xtime (v : Word) : residue (xtime v) = xResidue * residue v := by
  have hdrop : AdjoinRoot.mk generator (if v.getLsbD 0 then generator else 0) = 0 := by
    split
    · exact AdjoinRoot.mk_self
    · exact map_zero _
  have hmk := congrArg (AdjoinRoot.mk generator) (X_mul_polyOf_eq_xtime v)
  rw [map_mul, AdjoinRoot.mk_X, map_add, hdrop, add_zero] at hmk
  exact hmk.symm

@[simp] theorem residue_xtimes (k : Nat) (v : Word) : residue (xtimes k v) = xResidue ^ k * residue v := by
  induction k generalizing v with
  | zero => rw [xtimes, pow_zero, one_mul]
  | succ k ih => rw [xtimes, ih, residue_xtime, pow_succ, mul_assoc]

theorem residue_mulLoop (k : Nat) (a b acc : Word) :
    residue (mulLoop k a b acc) = residue acc + residue a * AdjoinRoot.mk generator (lowPoly k b) := by
  induction k generalizing a acc with
  | zero => simp [mulLoop, lowPoly]
  | succ k ih =>
    have hacc : residue (if b.getLsbD k then acc ^^^ a else acc) =
        residue acc + residue a * AdjoinRoot.mk generator (if b.getLsbD k then 1 else 0) := by
      split <;> simp
    rw [mulLoop, ih, hacc, residue_xtime, lowPoly_succ, map_add, map_mul, AdjoinRoot.mk_X, ← xResidue]
    ring

/-- R83: `mul` is multiplication modulo `G`. -/
@[simp] theorem residue_mul (a b : Word) : residue (mul a b) = residue a * residue b := by
  have hzero : residue 0 = 0 := residue_zero
  rw [mul, residue_mulLoop, hzero, zero_add, ← polyOf_eq_lowPoly, ← residue]

theorem residue_powLoop {k n : Nat} (h : n < 2 ^ k) (q : Word) : residue (powLoop k n q) = residue q ^ n := by
  induction k generalizing n q with
  | zero => rw [Nat.lt_one_iff.1 h, powLoop, residue_polyOne, pow_zero]
  | succ k ih =>
    have hhalf : residue (powLoop k (n / 2) (mul q q)) = residue q ^ (2 * (n / 2)) := by
      rw [ih (by omega), residue_mul, ← pow_two, pow_mul]
    rw [powLoop]
    split
    · rw [residue_mul, hhalf, ← pow_succ', show 2 * (n / 2) + 1 = n by omega]
    · rw [hhalf, show 2 * (n / 2) = n by omega]

/-! ## The order of x (R84) -/

theorem xResidue_pow_eq_one_iff_powLoop {n : Nat} (h : n < 2 ^ 32) :
    xResidue ^ n = 1 ↔ powLoop 32 n polyX = polyOne := by
  rw [← residue_injective.eq_iff (a := powLoop 32 n polyX), residue_powLoop h, residue_polyX, residue_polyOne]

theorem prime_dvd_xOrder {p : Nat} (hp : p.Prime) (h : p ∣ xOrder) : p ∈ [3, 5, 17, 257, 65537] := by
  have hprime : ∀ q ∈ [3, 5, 17, 257, 65537], q.Prime := by norm_num
  obtain ⟨q, hq, hpq⟩ := hp.prime.dvd_prod_iff.1 (show p ∣ [3, 5, 17, 257, 65537].prod from h)
  rwa [(Nat.prime_dvd_prime_iff_eq hp (hprime q hq)).1 hpq]

/-- x has the order 2^32 - 1: that power is 1, and none at a quotient by one of its primes is. -/
theorem orderOf_xResidue : orderOf xResidue = xOrder := by
  have hone : powLoop 32 xOrder polyX = polyOne := by decide +kernel
  have hne : ∀ p ∈ [3, 5, 17, 257, 65537], powLoop 32 (xOrder / p) polyX ≠ polyOne := by decide +kernel
  refine orderOf_eq_of_pow_and_pow_div_prime (by decide) ((xResidue_pow_eq_one_iff_powLoop (by decide)).2 hone) ?_
  intro p hp hdvd hpow
  have hlt : xOrder / p < 2 ^ 32 := (Nat.div_le_self ..).trans_lt (by decide)
  exact hne p (prime_dvd_xOrder hp hdvd) ((xResidue_pow_eq_one_iff_powLoop hlt).1 hpow)

theorem xResidue_pow_eq_one_iff (n : Nat) : xResidue ^ n = 1 ↔ xOrder ∣ n := by
  rw [← orderOf_xResidue, orderOf_dvd_iff_pow_eq_one]

/-- R84: `pow2(n)` is x^n modulo `G`; the reduced exponent gives the same power. -/
@[simp] theorem residue_pow2 (n : Nat) : residue (pow2 n) = xResidue ^ n := by
  have hlt : n % xOrder < 2 ^ 32 := (Nat.mod_lt n (by decide)).trans (by decide)
  rw [pow2, residue_powLoop hlt, residue_polyX, ← orderOf_xResidue, pow_mod_orderOf]

/-- Settles O15: a word is determined by its residue, and `mul` and `pow2` are the operations of the residues. -/
theorem mulAndPowersArePolynomialArithmetic : Obligations.MulAndPowersArePolynomialArithmetic := by
  refine ⟨fun a b => polyOf_eq_modByMonic_of_residue ?mul, fun n => polyOf_eq_modByMonic_of_residue ?pow⟩
  case mul => rw [residue_mul, map_mul, residue, residue]
  case pow => rw [residue_pow2, map_pow, AdjoinRoot.mk_X, xResidue]

/-! ## The laws of `mul` (R83) -/

theorem mul_comm_word (a b : Word) : mul a b = mul b a :=
  residue_injective (by rw [residue_mul, residue_mul, mul_comm])

theorem mul_assoc_word (a b c : Word) : mul (mul a b) c = mul a (mul b c) :=
  residue_injective (by simp only [residue_mul, mul_assoc])

@[simp] theorem mul_polyOne (a : Word) : mul a polyOne = a :=
  residue_injective (by rw [residue_mul, residue_polyOne, mul_one])

/-- Settles O16: each law is one of the ring of residues. -/
theorem mulLaws : Obligations.MulLaws := by
  refine fun a b c => ⟨mul_comm_word a b, mul_assoc_word a b c, residue_injective ?linear, mul_polyOne a,
    residue_injective ?zero, residue_injective ?x⟩
  case linear => simp only [residue_mul, residue_xor, mul_add]
  case zero =>
    have hzero : residue 0 = 0 := residue_zero
    rw [residue_mul, hzero, mul_zero]
  case x =>
    rw [residue_xtime, ← residue_polyX, mul_comm]
    exact residue_mul a polyX

/-! ## `xtime` and `xinv` (R82) -/

theorem xtime_xor (a b : Word) : xtime (a ^^^ b) = xtime a ^^^ xtime b :=
  residue_injective (by simp only [residue_xtime, residue_xor, mul_add])

theorem xtimes_xor (k : Nat) (a b : Word) : xtimes k (a ^^^ b) = xtimes k a ^^^ xtimes k b :=
  residue_injective (by simp only [residue_xtimes, residue_xor, mul_add])

/-- The top bit of `poly` is set and a shift right clears the top bit: it tells whether `poly` was added. -/
theorem xtime_getLsbD_31 (v : Word) : (xtime v).getLsbD 31 = v.getLsbD 0 := by
  rw [xtime, BitVec.getLsbD_xor]
  cases v.getLsbD 0 <;> simp [poly]

theorem ushiftRight_shiftLeft_one (v : Word) : v >>> 1 <<< 1 ||| (if v.getLsbD 0 then 1#32 else 0#32) = v := by
  refine BitVec.eq_of_getLsbD_eq fun i hi => ?_
  rw [BitVec.getLsbD_or, BitVec.getLsbD_shiftLeft, BitVec.getLsbD_ushiftRight]
  cases i with
  | zero => cases v.getLsbD 0 <;> rfl
  | succ i =>
    have hbit : (if v.getLsbD 0 then 1#32 else 0#32).getLsbD (i + 1) = false := by split <;> simp
    rw [hbit, show 1 + (i + 1 - 1) = i + 1 by omega]
    simp [hi]

theorem xinv_xtime (v : Word) : xinv (xtime v) = v := by
  have hback := ushiftRight_shiftLeft_one v
  rw [xinv, xtime_getLsbD_31, xtime]
  cases h : v.getLsbD 0 with
  | false =>
    rw [h] at hback
    simpa using hback
  | true =>
    rw [h] at hback
    simpa [BitVec.xor_assoc] using hback

theorem xtime_xinv (v : Word) : xtime (xinv v) = v :=
  have hleft : Function.LeftInverse xinv xtime := xinv_xtime
  hleft.rightInverse_of_surjective (Finite.surjective_of_injective hleft.injective) v

/-- Settles O17: on the finite set of words the left inverse of `xtime` is its inverse. -/
theorem xtimeIsALinearBijection : Obligations.XtimeIsALinearBijection := fun a b =>
  ⟨xinv_xtime a, xtime_xinv a, xtime_xor a b⟩

/-! ## Powers of x (R84) -/

theorem mul_pow2 (v : Word) (n : Nat) : mul v (pow2 n) = xtimes n v :=
  residue_injective (by rw [residue_mul, residue_pow2, residue_xtimes, mul_comm])

theorem mul_pow256 (v : Word) (n : Nat) : mul v (pow256 n) = xtimes (8 * n) v := mul_pow2 v (8 * n)

theorem pow2_eq_xtimes (n : Nat) : pow2 n = xtimes n polyOne := by
  rw [← mul_pow2, mul_comm_word, mul_polyOne]

theorem pow2_add (m n : Nat) : pow2 (m + n) = mul (pow2 m) (pow2 n) :=
  residue_injective (by simp only [residue_mul, residue_pow2, pow_add])

theorem pow2_eq_polyOne_iff (n : Nat) : pow2 n = polyOne ↔ xOrder ∣ n := by
  rw [← residue_injective.eq_iff, residue_pow2, residue_polyOne, xResidue_pow_eq_one_iff]

theorem pow2_mod_xOrder (n : Nat) : pow2 (n % xOrder) = pow2 n := by rw [pow2, Nat.mod_mod, ← pow2]

/-- Settles O18: `pow2` is a power of x, and x has the order 2^32 - 1. -/
theorem powersOfX : Obligations.PowersOfX :=
  ⟨fun n => ⟨pow2_eq_xtimes n, pow2_eq_xtimes (8 * n)⟩, pow2_add, pow2_eq_polyOne_iff,
    fun n => (pow2_mod_xOrder n).symm⟩

theorem xtimes_xtimes (m n : Nat) (v : Word) : xtimes m (xtimes n v) = xtimes (m + n) v :=
  residue_injective (by simp only [residue_xtimes, pow_add, mul_assoc])

theorem xtimes_of_xOrder_dvd {n : Nat} (h : xOrder ∣ n) (v : Word) : xtimes n v = v := by
  rw [← mul_pow2, (pow2_eq_polyOne_iff n).2 h, mul_polyOne]

/-! ## The CRC loop (R80, R88) -/

theorem crc_eq_not32 (data : List Byte) (init : Word) : crc data init = not32 (crcRegister data (not32 init)) := rfl

@[simp] theorem not32_not32 (v : Word) : not32 (not32 v) = v := by
  rw [not32, not32, BitVec.xor_assoc, BitVec.xor_self, BitVec.xor_zero]

theorem not32_xor (v w : Word) : not32 (v ^^^ w) = not32 v ^^^ w := by
  rw [not32, not32, BitVec.xor_assoc, BitVec.xor_comm w, BitVec.xor_assoc]

theorem crcRegister_cons (b : Byte) (data : List Byte) (c : Word) :
    crcRegister (b :: data) c = crcRegister data (crcByte c b) := rfl

theorem crcRegister_append (a b : List Byte) (c : Word) : crcRegister (a ++ b) c = crcRegister b (crcRegister a c) :=
  List.foldl_append

/-- A difference between two starting values runs through the loop as if the bytes were zero. -/
theorem crcRegister_xor (data : List Byte) (c d : Word) :
    crcRegister data (c ^^^ d) = crcRegister data c ^^^ xtimes (8 * data.length) d := by
  induction data generalizing c d with
  | nil => rfl
  | cons b rest ih =>
    have hbyte : crcByte (c ^^^ d) b = crcByte c b ^^^ xtimes 8 d := by
      rw [crcByte, crcByte, BitVec.xor_assoc, BitVec.xor_comm d, ← BitVec.xor_assoc, xtimes_xor]
    rw [crcRegister_cons, crcRegister_cons, hbyte, ih, xtimes_xtimes, List.length_cons, Nat.mul_succ]

theorem crcRegister_replicate_zero (n : Nat) (c : Word) : crcRegister (List.replicate n 0) c = xtimes (8 * n) c := by
  induction n generalizing c with
  | zero => rfl
  | succ n ih =>
    have hbyte : crcByte c 0 = xtimes 8 c := congrArg (xtimes 8) BitVec.xor_zero
    rw [List.replicate_succ, crcRegister_cons, hbyte, ih, xtimes_xtimes, Nat.mul_succ]

theorem crc_nil (v : Word) : crc [] v = v := not32_not32 v

theorem crc_append (a b : List Byte) (v : Word) : crc (a ++ b) v = crc b (crc a v) := by
  rw [crc_eq_not32, crcRegister_append, crc_eq_not32 b, crc_eq_not32 a, not32_not32]

theorem crc_xor (data : List Byte) (v w : Word) : crc data (v ^^^ w) = crc data v ^^^ xtimes (8 * data.length) w := by
  rw [crc_eq_not32, not32_xor, crcRegister_xor, not32_xor, ← crc_eq_not32]

theorem crc_append_eq_combine (a b : List Byte) : crc (a ++ b) 0 = combine (crc a 0) (crc b 0) b.length := by
  have hzero : crc b (crc a 0) = crc b (0 ^^^ crc a 0) := congrArg (crc b) BitVec.zero_xor.symm
  rw [crc_append, hzero, crc_xor, combine, mul_pow256, BitVec.xor_comm]

theorem crcStep_eq_xtime : crcStep = xtime := rfl

theorem xtimes_eq_iterate (k : Nat) : xtimes k = xtime^[k] := by
  induction k with
  | zero => rfl
  | succ k ih => exact funext fun v => congrFun ih (xtime v)

/-! ## Zero bytes appended and removed (R85, R86, R89) -/

theorem zeros_eq_xtimes (c : Word) (n : Nat) : zeros c n = not32 (xtimes (8 * n) (not32 c)) := by
  rw [zeros, mul_pow256]

theorem unzero_eq_xtimes (c : Word) (n : Nat) : unzero c n = not32 (xtimes (unzeroExponent n) (not32 c)) := by
  rw [unzero, mul_pow2]

theorem xOrder_dvd_unzeroExponent_add (n : Nat) : xOrder ∣ unzeroExponent n + 8 * n := by
  rw [Nat.dvd_iff_mod_eq_zero, unzeroExponent, Nat.mod_add_mod, xOrder]
  omega

theorem unzero_zeros (c : Word) (n : Nat) : unzero (zeros c n) n = c := by
  rw [unzero_eq_xtimes, zeros_eq_xtimes, not32_not32, xtimes_xtimes,
    xtimes_of_xOrder_dvd (xOrder_dvd_unzeroExponent_add n), not32_not32]

theorem zeros_unzero (c : Word) (n : Nat) : zeros (unzero c n) n = c := by
  rw [zeros_eq_xtimes, unzero_eq_xtimes, not32_not32, xtimes_xtimes, Nat.add_comm,
    xtimes_of_xOrder_dvd (xOrder_dvd_unzeroExponent_add n), not32_not32]

theorem zeros_eq_crc (c : Word) (n : Nat) : zeros c n = crc (List.replicate n 0) c := by
  rw [zeros_eq_xtimes, crc_eq_not32, crcRegister_replicate_zero]

/-- Settles O19: the laws of the loop, which the model writes with `xtime`. -/
theorem combineAndContinuationLaws : Obligations.CombineAndContinuationLaws := by
  refine ⟨crc_append_eq_combine, unzero_zeros, crc_append, crc_nil, fun data init => ?loop⟩
  rw [crcStep_eq_xtime, ← xtimes_eq_iterate]
  rfl

/-- Settles O20: on zero bytes the loop multiplies by x alone. -/
theorem zerosAppendsZeroBytes : Obligations.ZerosAppendsZeroBytes := zeros_eq_crc

/-- Settles O21: the two exponents add up to a multiple of the order of x. -/
theorem unzeroInvertsZeros : Obligations.UnzeroInvertsZeros := by
  refine fun c n => ⟨unzero_zeros c n, zeros_unzero c n, fun c' h => ?unique⟩
  rw [← h, unzero_zeros]

/-! ## The commands (R90 to R97) -/

theorem execCrcUpd_of_chunk {s : State} {data : List Byte} (h : ChunkIs s data) :
    execCrcUpd s = putR (crc data s.a) s := by
  obtain ⟨hlen, hdata⟩ := h
  rw [execCrcUpd, require_of_true hlen, hdata, withBytes_some]

theorem execCrcUpd_of_too_long {s : State} (h : s.cfg.ibufSize < s.inLen.toNat) :
    execCrcUpd s = .next (raise .eRange s) := require_of_false (Nat.not_le.2 h) ..

/-- Settles O22: the chunk check passes and the loop's value goes to `R`, or the check fails. -/
theorem crcUpdPutsTheChunkCrcInR : Obligations.CrcUpdPutsTheChunkCrcInR :=
  ⟨decode_encode .crcUpd, fun _ _ h => ⟨_, execCrcUpd_of_chunk h, rfl, rfl, rfl⟩, fun _ => execCrcUpd_of_too_long⟩

/-- Settles O23: the multiplier of `combine` is the power `xtimes` gives, and `mul` is commutative. -/
theorem crcCombAndMulPutTheirValueInR : Obligations.CrcCombAndMulPutTheirValueInR := by
  refine ⟨decode_encode .crcComb, decode_encode .crcMul, fun s => ⟨_, _, _, rfl, ?comb, rfl, rfl, rfl, rfl, rfl, ?swap⟩⟩
  case comb => exact congrArg (mul s.a · ^^^ s.b) (pow2_eq_xtimes (8 * s.n.toNat))
  case swap => exact mul_comm_word s.b s.a

/-- Settles O24: the closed forms are the CRC after the zero bytes and before them. -/
theorem crcZerosAndUnzeroPutTheirValueInR : Obligations.CrcZerosAndUnzeroPutTheirValueInR := by
  refine ⟨decode_encode .crcZeros, decode_encode .crcUnzero, fun s => ⟨_, _, rfl, ?zeros, rfl, rfl, ?unzero, rfl⟩⟩
  case zeros => exact zeros_eq_crc s.a s.n.toNat
  case unzero => exact (zeros_eq_crc _ _).symm.trans (zeros_unzero s.a s.n.toNat)

/-- Settles O25: both commands end with a power of x. -/
theorem crcPowersPutThePowerInR : Obligations.CrcPowersPutThePowerInR :=
  ⟨decode_encode .crcPow2, decode_encode .crcPow256, fun s =>
    ⟨_, _, rfl, pow2_eq_xtimes s.n.toNat, rfl, rfl, pow2_eq_xtimes (8 * s.n.toNat), rfl⟩⟩

/-- The inversion of `exec` at a CRC command: it puts a value in `R`, or takes the fault entry. -/
theorem exec_crc_next {i : Instr} (hi : i ∈ crcCommands) {s t : State} (h : exec i s = .next t) :
    (∃ v, t = complete { s with r := v }) ∨ t = raise .eRange s := by
  cases i with
  | crcUpd =>
    rcases execCrcUpd_next h with ⟨data, -, h⟩ | h
    · exact .inl ⟨_, h⟩
    · exact .inr h
  | crcComb | crcZeros | crcUnzero | crcMul | crcPow2 | crcPow256 => exact .inl ⟨_, putR_next h⟩
  | encBlk | encMaxlen | decBlk | decInc | frmSingle | frmMulti => simp [crcCommands] at hi

theorem readReg_complete_withR {reg : Reg} (h : reg ∉ [Reg.r, .status]) (v : Word) (s : State) :
    readReg (complete { s with r := v }) reg = readReg s reg := by
  cases reg with
  | r | status => simp at h
  | _ => rfl

theorem buffer_complete_withR (v : Word) (s : State) (b : Config.Buf) :
    buffer (complete { s with r := v }) b = buffer s b := by
  cases b <;> rfl

/-- Settles O26: neither a value in `R` nor the fault entry changes anything else. -/
theorem crcCommandsFrame : Obligations.CrcCommandsFrame := by
  intro i hi s t h
  rcases exec_crc_next hi h with ⟨v, rfl⟩ | rfl
  · exact ⟨fun reg hreg => readReg_complete_withR hreg v s, fun b j => by rw [buffer_complete_withR], rfl, rfl, rfl⟩
  · exact ⟨fun reg hreg => readReg_raise (fun hst => hreg (by simp [hst])) .eRange s, fun b j => by rw [buffer_raise],
      rfl, rfl, rfl⟩

end Sys2Proof.Machine
end

section
/-! PROOFS. The family 41_encoder.md: the characters of one byte, the column, the lines and the length of the output, and
the two commands. -/

namespace Sys2Proof.Machine

/-! ## The characters of one byte (R110, R111, R116) -/

/-- The values escaped at every column (R111). -/
def criticalValues : List Byte := [0x00#8, 0x0A#8, 0x0D#8, 0x3D#8]

/-- The second characters of the escape pairs (R116). -/
def escapedValues : List Byte := [0x40#8, 0x4A#8, 0x4D#8, 0x7D#8, 0x6E#8]

theorem mustEscape_iff {e : Byte} {col : Nat} :
    mustEscape e col = true ↔ e ∈ criticalValues ∨ (e = 0x2E#8 ∧ col = 0) := by
  simp [mustEscape, criticalValues, or_assoc]

theorem not_mustEscape_iff {e : Byte} {col : Nat} :
    mustEscape e col = false ↔ e ∉ criticalValues ∧ ¬(e = 0x2E#8 ∧ col = 0) := by
  rw [← Bool.not_eq_true, mustEscape_iff, not_or]

theorem escaped_mem {e : Byte} {col : Nat} (h : mustEscape e col = true) : e + 64#8 ∈ escapedValues := by
  have hcritical : ∀ e ∈ criticalValues, e + 64#8 ∈ escapedValues := by decide
  rcases mustEscape_iff.1 h with h | ⟨rfl, -⟩
  · exact hcritical e h
  · decide

/-- The escape predicate in terms of the input byte (R111). -/
theorem mustEscape_add_iff (b : Byte) (col : Nat) :
    mustEscape (b + 42#8) col = true ↔ b ∈ [0xD6#8, 0xE0#8, 0xE3#8, 0x13#8] ∨ (b = 0x04#8 ∧ col = 0) := by
  simp [mustEscape_iff, criticalValues, ← eq_sub_iff_add_eq]

theorem encodeChars_of_mustEscape {b : Byte} {col : Nat} (h : mustEscape (b + 42#8) col = true) :
    encodeChars col b = [escByte, b + 42#8 + 64#8] := if_pos h

theorem encodeChars_of_not_mustEscape {b : Byte} {col : Nat} (h : mustEscape (b + 42#8) col = false) :
    encodeChars col b = [b + 42#8] := if_neg (Bool.eq_false_iff.1 h)

/-- Settles O30: the escape predicate read back through `b + 42`, and the two forms of `encodeChars`. -/
theorem escapedBytesAndTheirPairs : Obligations.EscapedBytesAndTheirPairs := by
  intro b col
  have hadd : b + 42#8 + 64#8 = b + 106#8 := BitVec.add_assoc b 42#8 64#8
  refine ⟨mustEscape_add_iff b col, fun h => ?_, encodeChars_of_not_mustEscape⟩
  rw [← hadd]
  exact ⟨encodeChars_of_mustEscape h, escaped_mem h⟩

theorem encodeChars_length (col : Nat) (b : Byte) :
    (encodeChars col b).length = 1 ∨ (encodeChars col b).length = 2 := by
  unfold encodeChars
  split
  · exact .inr rfl
  · exact .inl rfl

/-! ## One byte with its line break (R112) -/

theorem encodeByte_of_full {lineSize col : Nat} {b : Byte} (h : lineSize ≤ col + (encodeChars col b).length) :
    encodeByte lineSize col b = (encodeChars col b ++ crlf, 0) := if_pos h

theorem encodeByte_of_room {lineSize col : Nat} {b : Byte} (h : col + (encodeChars col b).length < lineSize) :
    encodeByte lineSize col b = (encodeChars col b, col + (encodeChars col b).length) := if_neg (Nat.not_le.2 h)

@[simp] theorem crlf_length : crlf.length = 2 := rfl

theorem encodeByte_col_lt {lineSize : Nat} (h : 0 < lineSize) (col : Nat) (b : Byte) :
    (encodeByte lineSize col b).2 < lineSize := by
  rcases Nat.lt_or_ge (col + (encodeChars col b).length) lineSize with hroom | hfull
  · rwa [encodeByte_of_room hroom]
  · rwa [encodeByte_of_full hfull]

theorem encodeByte_ends_in_crlf {lineSize col : Nat} {b : Byte} (h : (encodeByte lineSize col b).2 = 0) :
    (encodeByte lineSize col b).1 = encodeChars col b ++ crlf := by
  rcases Nat.lt_or_ge (col + (encodeChars col b).length) lineSize with hroom | hfull
  · rw [encodeByte_of_room hroom] at h
    have := encodeChars_length col b
    omega
  · rw [encodeByte_of_full hfull]

/-! ## The column carried from byte to byte (R113, R115) -/

@[simp] theorem encodeBytes_nil (lineSize col : Nat) (e : Bool) : encodeBytes [] lineSize col e = ([], col) := rfl

theorem encodeBytes_cons (b : Byte) (rest : List Byte) (lineSize col : Nat) (e : Bool) :
    encodeBytes (b :: rest) lineSize col e =
      ((encodeByte lineSize col b).1 ++ (encodeBytes rest lineSize (encodeByte lineSize col b).2 e).1,
        (encodeBytes rest lineSize (encodeByte lineSize col b).2 e).2) := rfl

@[simp] theorem encodeBytes_singleton (b : Byte) (lineSize col : Nat) (e : Bool) :
    encodeBytes [b] lineSize col e = encodeByte lineSize col b := by simp [encodeBytes_cons]

theorem encodeBytes_append (d1 d2 : List Byte) (lineSize col : Nat) (e : Bool) :
    encodeBytes (d1 ++ d2) lineSize col e =
      ((encodeBytes d1 lineSize col e).1 ++ (encodeBytes d2 lineSize (encodeBytes d1 lineSize col e).2 e).1,
        (encodeBytes d2 lineSize (encodeBytes d1 lineSize col e).2 e).2) := by
  induction d1 generalizing col with
  | nil => rfl
  | cons b d1 ih => simp only [List.cons_append, encodeBytes_cons, ih, List.append_assoc]

/-- Settles O27: the column is all the encoder carries, and the flags do not matter. -/
theorem encodeIsChunkIndependent : Obligations.EncodeIsChunkIndependent := by
  intro d1 d2 lineSize col e1 e2 e
  rw [encodeBytes_isEnd d1 lineSize col e1 e, encodeBytes_isEnd d2 lineSize _ e2 e]
  exact encodeBytes_append d1 d2 lineSize col e

theorem encodeBytes_col_lt {lineSize col : Nat} (h : col < lineSize) (data : List Byte) (e : Bool) :
    (encodeBytes data lineSize col e).2 < lineSize := by
  induction data generalizing col with
  | nil => exact h
  | cons b rest ih => exact ih (encodeByte_col_lt (Nat.zero_lt_of_lt h) col b)

/-- Column 0 after a byte is left by its line break alone. -/
theorem encodeBytes_ends_in_crlf {data : List Byte} {lineSize col : Nat} {e : Bool}
    (h : (encodeBytes data lineSize col e).2 = 0) (hne : data ≠ []) :
    ∃ front, (encodeBytes data lineSize col e).1 = front ++ crlf := by
  obtain ⟨before, b, rfl⟩ := (List.eq_nil_or_concat data).resolve_left hne
  rw [List.concat_eq_append, encodeBytes_append, encodeBytes_singleton] at h ⊢
  rw [encodeByte_ends_in_crlf h, ← List.append_assoc]
  exact ⟨_, rfl⟩

/-- Settles O28: every byte leaves a column below the line size, and the last byte leaves 0 only with its break. -/
theorem encodeColumnStaysInTheLine : Obligations.EncodeColumnStaysInTheLine := fun data _ _ e hcol =>
  ⟨encodeBytes_col_lt hcol data e, encodeBytes_ends_in_crlf⟩

/-! ## The lines of a fresh stream (R112, R116)

A line is built byte by byte from the empty one. That it does not come to start with `=y` needs more than it says: a
line never consists of the escape byte alone, because pairs are not split. -/

/-- The start of a line: no `.` comes first, and after an escape byte comes a second byte, other than `y`. -/
def CleanStart : List Byte → Prop
  | [] => True
  | [x] => x ≠ 0x2E#8 ∧ x ≠ escByte
  | x :: y :: _ => x ≠ 0x2E#8 ∧ (x = escByte → y ≠ 0x79#8)

/-- The characters of a line as the encoder leaves it between two input bytes. -/
def CleanLine (l : List Byte) : Prop := (∀ x ∈ l, x ≠ 0x0D#8 ∧ x ≠ 0x0A#8 ∧ x ≠ 0x00#8) ∧ CleanStart l

theorem CleanStart.append {l : List Byte} (h : CleanStart l) (hne : l ≠ []) (m : List Byte) : CleanStart (l ++ m) := by
  match l, m with
  | [], _ => exact absurd rfl hne
  | [x], [] => exact h
  | [x], y :: _ => exact ⟨h.1, fun hx => absurd hx h.2⟩
  | x :: y :: _, _ => exact h

theorem CleanStart.head?_ne {l : List Byte} (h : CleanStart l) : l.head? ≠ some 0x2E#8 := by
  match l with
  | [] => simp
  | [x] => simpa using h.1
  | x :: y :: _ => simpa using h.1

theorem CleanStart.take_ne {l : List Byte} (h : CleanStart l) : l.take 2 ≠ [0x3D#8, 0x79#8] := by
  match l with
  | [] => simp
  | [x] => simp
  | x :: y :: _ => simpa [escByte] using h.2

theorem cleanLine_nil : CleanLine [] := ⟨by simp, trivial⟩

theorem encodeChars_mem_ne {col : Nat} {b x : Byte} (h : x ∈ encodeChars col b) :
    x ≠ 0x0D#8 ∧ x ≠ 0x0A#8 ∧ x ≠ 0x00#8 := by
  cases hesc : mustEscape (b + 42#8) col with
  | true =>
    have hpair : ∀ v ∈ escapedValues, v ≠ 0x0D#8 ∧ v ≠ 0x0A#8 ∧ v ≠ 0x00#8 := by decide
    rw [encodeChars_of_mustEscape hesc] at h
    rcases List.mem_pair.1 h with rfl | rfl
    · decide
    · exact hpair _ (escaped_mem hesc)
  | false =>
    rw [encodeChars_of_not_mustEscape hesc] at h
    cases List.mem_singleton.1 h
    obtain ⟨hcritical, -⟩ := not_mustEscape_iff.1 hesc
    refine ⟨?_, ?_, ?_⟩ <;> exact fun hx => hcritical (by rw [hx]; decide)

theorem cleanStart_encodeChars_zero (b : Byte) : CleanStart (encodeChars 0 b) := by
  cases hesc : mustEscape (b + 42#8) 0 with
  | true =>
    have hpair : ∀ v ∈ escapedValues, v ≠ 0x79#8 := by decide
    rw [encodeChars_of_mustEscape hesc]
    exact ⟨by decide, fun _ => hpair _ (escaped_mem hesc)⟩
  | false =>
    obtain ⟨hcritical, hdot⟩ := not_mustEscape_iff.1 hesc
    rw [encodeChars_of_not_mustEscape hesc]
    exact ⟨fun h => hdot ⟨h, rfl⟩, fun h => hcritical (by rw [h]; decide)⟩

theorem CleanLine.append_encodeChars {l : List Byte} (h : CleanLine l) (b : Byte) :
    CleanLine (l ++ encodeChars l.length b) := by
  obtain ⟨hbytes, hstart⟩ := h
  refine ⟨fun x hx => (List.mem_append.1 hx).elim (hbytes x) encodeChars_mem_ne, ?_⟩
  by_cases hl : l = []
  · subst hl
    exact cleanStart_encodeChars_zero b
  · exact hstart.append hl _

/-- `out` is clean lines of `L` or `L + 1` characters, each followed by CR LF, and a shorter clean line of `col`. -/
def SplitsIntoLines (lineSize : Nat) (out : List Byte) (col : Nat) : Prop :=
  ∃ lines last, out = lines.flatMap (· ++ crlf) ++ last ∧ col = last.length ∧ last.length < lineSize ∧
    (∀ l ∈ lines, l.length = lineSize ∨ l.length = lineSize + 1) ∧ ∀ l ∈ last :: lines, CleanLine l

theorem splitsIntoLines_of_short {lineSize : Nat} {l : List Byte} (hlen : l.length < lineSize) (hl : CleanLine l) :
    SplitsIntoLines lineSize l l.length :=
  ⟨[], l, rfl, rfl, hlen, by simp, by simpa using hl⟩

theorem SplitsIntoLines.cons {lineSize col : Nat} {l out : List Byte} (h : SplitsIntoLines lineSize out col)
    (hlen : l.length = lineSize ∨ l.length = lineSize + 1) (hl : CleanLine l) :
    SplitsIntoLines lineSize (l ++ crlf ++ out) col := by
  obtain ⟨lines, last, rfl, hcol, hlast, hlines, hclean⟩ := h
  obtain ⟨hcleanLast, hcleanLines⟩ := List.forall_mem_cons.1 hclean
  exact ⟨l :: lines, last, by simp, hcol, hlast, List.forall_mem_cons.2 ⟨hlen, hlines⟩,
    List.forall_mem_cons.2 ⟨hcleanLast, List.forall_mem_cons.2 ⟨hl, hcleanLines⟩⟩⟩

/-- The line under way, in front of what the encoder makes of the rest of the stream. -/
theorem splitsIntoLines_encodeBytes {lineSize : Nat} {l : List Byte} (hlen : l.length < lineSize) (hl : CleanLine l)
    (data : List Byte) (e : Bool) :
    SplitsIntoLines lineSize (l ++ (encodeBytes data lineSize l.length e).1)
      (encodeBytes data lineSize l.length e).2 := by
  induction data generalizing l with
  | nil => simpa using splitsIntoLines_of_short hlen hl
  | cons b rest ih =>
    have hlonger := hl.append_encodeChars b
    rw [encodeBytes_cons]
    rcases Nat.lt_or_ge (l.length + (encodeChars l.length b).length) lineSize with hroom | hfull
    · have hrest := ih (by rwa [List.length_append]) hlonger
      rw [encodeByte_of_room hroom, ← List.append_assoc, ← List.length_append]
      exact hrest
    · have hrest := ih (l := []) (Nat.zero_lt_of_lt hlen) cleanLine_nil
      have hline : (l ++ encodeChars l.length b).length = lineSize ∨
          (l ++ encodeChars l.length b).length = lineSize + 1 := by
        have := encodeChars_length l.length b
        rw [List.length_append]
        omega
      rw [encodeByte_of_full hfull, ← List.append_assoc, ← List.append_assoc]
      exact hrest.cons hline hlonger

/-- Settles O29: a fresh stream starts with the empty line under way. -/
theorem encodedLinesHaveTheirShape : Obligations.EncodedLinesHaveTheirShape := by
  intro data lineSize e hline
  obtain ⟨lines, last, hout, hcol, hlast, hlines, hclean⟩ := splitsIntoLines_encodeBytes hline cleanLine_nil data e
  refine ⟨lines, last, hout, hcol, hlast, hlines, fun l hl => ?_⟩
  obtain ⟨hbytes, hstart⟩ := hclean l hl
  exact ⟨hbytes, hstart.head?_ne, hstart.take_ne⟩

/-! ## The length of the output (R121, R122)

Let `H = ceil(L / 2)`. To fill a line from column 0 takes at least `H` bytes, and exactly `H` when all are escaped. -/

/-- `worstLen` without its case for `n = 0`. -/
theorem worstLen_eq {lineSize : Nat} (h : 1 ≤ lineSize) (n : Nat) :
    worstLen n lineSize = 2 * n + 2 * ((n + ((lineSize + 1) / 2 - 1)) / ((lineSize + 1) / 2)) := by
  have hpos : 0 < (lineSize + 1) / 2 := by omega
  cases n with
  | zero => rw [worstLen, if_pos rfl, Nat.div_eq_of_lt (by omega)]
  | succ n =>
    have hsum : n + 1 + ((lineSize + 1) / 2 - 1) = n + (lineSize + 1) / 2 := by omega
    rw [worstLen, if_neg (Nat.succ_ne_zero n), hsum, Nat.add_div_right _ hpos, Nat.add_sub_cancel, Nat.add_comm 1]

/-- `p` stands for the bytes already on the line: at least `2 (H - p) - 1` characters of it are free, so that it takes
at least `H - p` more bytes to fill it. -/
theorem encodeBytes_length_le {lineSize col p : Nat} (hcol : col < lineSize)
    (hp : 2 * ((lineSize + 1) / 2) ≤ lineSize - col + 1 + 2 * p) (data : List Byte) (e : Bool) :
    (encodeBytes data lineSize col e).1.length ≤ 2 * data.length + 2 * ((data.length + p) / ((lineSize + 1) / 2)) := by
  induction data generalizing col p with
  | nil => exact Nat.zero_le _
  | cons b rest ih =>
    have hchars := encodeChars_length col b
    rw [encodeBytes_cons, List.length_append, List.length_cons]
    rcases Nat.lt_or_ge (col + (encodeChars col b).length) lineSize with hroom | hfull
    · have hrest := ih (p := p + 1) hroom (by omega)
      have hsum : rest.length + 1 + p = rest.length + (p + 1) := by omega
      simp only [encodeByte_of_room hroom, hsum]
      omega
    · have hrest := ih (col := 0) (p := 0) (by omega) (by omega)
      have hbreak : rest.length / ((lineSize + 1) / 2) + 1 ≤ (rest.length + 1 + p) / ((lineSize + 1) / 2) :=
        calc rest.length / ((lineSize + 1) / 2) + 1
          _ = (rest.length + (lineSize + 1) / 2) / ((lineSize + 1) / 2) := (Nat.add_div_right _ (by omega)).symm
          _ ≤ (rest.length + 1 + p) / ((lineSize + 1) / 2) := Nat.div_le_div_right (by omega)
      rw [Nat.add_zero] at hrest
      simp only [encodeByte_of_full hfull, List.length_append, crlf_length]
      omega

theorem encodeBytes_length_le_worstLen {lineSize col : Nat} (hcol : col < lineSize) (data : List Byte) (e : Bool) :
    (encodeBytes data lineSize col e).1.length ≤ worstLen data.length lineSize := by
  rw [worstLen_eq (Nat.one_le_of_lt hcol)]
  exact encodeBytes_length_le hcol (by omega) data e

theorem worstLen_le_defaultMaxLen {lineSize : Nat} (h : 1 ≤ lineSize) (n : Nat) :
    worstLen n lineSize ≤ defaultMaxLen n lineSize := by
  unfold worstLen
  split
  · exact Nat.zero_le _
  · have hbreaks : 1 + (n - 1) / ((lineSize + 1) / 2) ≤ (2 * n + lineSize - 1) / lineSize :=
      calc 1 + (n - 1) / ((lineSize + 1) / 2)
        _ = 1 + 2 * (n - 1) / (2 * ((lineSize + 1) / 2)) := by rw [Nat.mul_div_mul_left _ _ Nat.two_pos]
        _ ≤ 1 + 2 * (n - 1) / lineSize := Nat.add_le_add_left (Nat.div_le_div_left (by omega) h) 1
        _ = (2 * (n - 1) + lineSize) / lineSize := by rw [Nat.add_div_right _ h, Nat.add_comm]
        _ ≤ (2 * n + lineSize - 1) / lineSize := Nat.div_le_div_right (by omega)
    unfold defaultMaxLen
    omega

theorem worstLen_le_encMaxLen {lineSize : Nat} (h : 1 ≤ lineSize) (rule : Config.MaxLenRule) (n : Nat) :
    worstLen n lineSize ≤ encMaxLen rule n lineSize := by
  cases rule with
  | dflt => exact worstLen_le_defaultMaxLen h n
  | custom => exact Nat.le_max_right ..

/-- Settles O31: `worstLen` bounds the output, and both formulas are at least `worstLen`. -/
theorem encMaxLenBoundsTheOutput : Obligations.EncMaxLenBoundsTheOutput := fun rule data _ _ e hcol =>
  (encodeBytes_length_le_worstLen hcol data e).trans (worstLen_le_encMaxLen (Nat.one_le_of_lt hcol) rule data.length)

/-! `worstLen` is reached, so no formula with the property of R121 is below it -/

/-- `0xD6` is escaped at every column. -/
theorem encodeChars_escaped (col : Nat) : encodeChars col 0xD6#8 = [escByte, 0x40#8] :=
  encodeChars_of_mustEscape (mustEscape_iff.2 (.inl (by decide)))

theorem encodeByte_escaped_of_full {lineSize col : Nat} (h : lineSize ≤ col + 2) :
    encodeByte lineSize col 0xD6#8 = ([escByte, 0x40#8] ++ crlf, 0) := by
  rw [encodeByte_of_full (by rwa [encodeChars_escaped]), encodeChars_escaped]

theorem encodeByte_escaped_of_room {lineSize col : Nat} (h : col + 2 < lineSize) :
    encodeByte lineSize col 0xD6#8 = ([escByte, 0x40#8], col + 2) := by
  rw [encodeByte_of_room (by rwa [encodeChars_escaped]), encodeChars_escaped]
  rfl

/-- `n` escaped bytes after `p` others on their line, which is not full. -/
theorem encodeBytes_escaped_length {lineSize p : Nat} (hp : p < (lineSize + 1) / 2) (n : Nat) (e : Bool) :
    (encodeBytes (List.replicate n 0xD6#8) lineSize (2 * p) e).1.length =
      2 * n + 2 * ((n + p) / ((lineSize + 1) / 2)) := by
  induction n generalizing p with
  | zero => simp [Nat.div_eq_of_lt hp]
  | succ n ih =>
    rw [List.replicate_succ, encodeBytes_cons, List.length_append]
    rcases Nat.lt_or_ge (p + 1) ((lineSize + 1) / 2) with hroom | hfull
    · have hrest := ih hroom
      have hsum : n + 1 + p = n + (p + 1) := by omega
      rw [encodeByte_escaped_of_room (by omega), ← Nat.mul_succ, hrest, hsum, List.length_cons, List.length_singleton]
      omega
    · have hrest := ih (p := 0) (by omega)
      have hsum : n + 1 + p = n + (lineSize + 1) / 2 := by omega
      rw [Nat.mul_zero, Nat.add_zero] at hrest
      rw [encodeByte_escaped_of_full (by omega), hrest, hsum, Nat.add_div_right _ (by omega)]
      simp only [List.length_append, List.length_cons, List.length_nil, crlf_length]
      omega

/-- The worst chunk: escaped bytes from the last column on. -/
theorem encodeBytes_escaped_length_eq_worstLen {lineSize : Nat} (h : 1 ≤ lineSize) (n : Nat) (e : Bool) :
    (encodeBytes (List.replicate n 0xD6#8) lineSize (lineSize - 1) e).1.length = worstLen n lineSize := by
  cases n with
  | zero => rfl
  | succ n =>
    have hrest := encodeBytes_escaped_length (lineSize := lineSize) (p := 0) (by omega) n e
    rw [Nat.mul_zero, Nat.add_zero] at hrest
    rw [List.replicate_succ, encodeBytes_cons, encodeByte_escaped_of_full (by omega), List.length_append, hrest,
      worstLen, if_neg (Nat.succ_ne_zero n), Nat.add_sub_cancel]
    simp only [List.length_append, List.length_cons, List.length_nil, crlf_length]
    omega

/-- Settles O32: a formula with the property of R121 holds for the worst chunk. -/
theorem everyAdmissibleFormulaIsCovered : Obligations.EveryAdmissibleFormulaIsCovered := by
  intro f hf n lineSize hline
  have hworst := hf (List.replicate n 0xD6#8) lineSize (lineSize - 1) true (by omega)
  rw [encodeBytes_escaped_length_eq_worstLen hline, List.length_replicate] at hworst
  exact Nat.max_eq_left hworst

/-! ## The commands (R117, R123) -/

theorem one_le_toNat_iff (v : Len) : 1 ≤ v.toNat ↔ v ≠ 0 := by
  rw [Nat.one_le_iff_ne_zero, ne_eq, ne_eq, ← BitVec.toNat_inj]
  rfl

/-- What a command leaves in `OBUF` and `OUT_LEN` when it completes with the output `out` (R17, R49). -/
theorem outputIs_complete_putOutput {out : List Byte} (h : out.length < 2 ^ 64) (s : State) :
    OutputIs (complete (putOutput out s)) out := by
  have hlen : (complete (putOutput out s)).outLen.toNat = out.length := toNat_ofNat_of_lt h
  refine ⟨hlen, ?_, fun i hi => ?_⟩
  · rw [hlen]
    exact readBytes_bytesFrom out
  · simp [readByte_bytesFrom, hi]

theorem sameRegsBut_raise {changed : List Reg} (h : .status ∈ changed) (c : FaultCode) (s : State) :
    SameRegsBut changed s (raise c s) :=
  fun _ hreg => readReg_raise (ne_of_mem_of_not_mem h hreg).symm c s

theorem readReg_complete_putEncoded {reg : Reg} (h : reg ∉ [Reg.outLen, .col, .status]) (out : List Byte) (c : Len)
    (s : State) : readReg (complete (putOutput out { s with col := c })) reg = readReg s reg := by
  cases reg with
  | outLen | col | status => simp at h
  | _ => rfl

theorem readReg_complete_putMaxlen {reg : Reg} (h : reg ∉ [Reg.maxlen, .status]) (m : Len) (s : State) :
    readReg (complete { s with maxlen := m }) reg = readReg s reg := by
  cases reg with
  | maxlen | status => simp at h
  | _ => rfl

theorem buffer_complete_putMaxlen (m : Len) (s : State) (b : Config.Buf) :
    buffer (complete { s with maxlen := m }) b = buffer s b := by
  cases b <;> rfl

theorem execEncBlk_of_chunk {s : State} {data : List Byte} (h : ChunkIs s data) (hcol : s.col.toNat < s.line.toNat)
    (isEnd : Bool) :
    execEncBlk isEnd s = deliver s (encodeBytes data s.line.toNat s.col.toNat isEnd).1
      { s with col := BitVec.ofNat 64 (encodeBytes data s.line.toNat s.col.toNat isEnd).2 } := by
  obtain ⟨hlen, hdata⟩ := h
  rw [execEncBlk, require_of_true hlen, require_of_true (Nat.one_le_of_lt hcol), require_of_true hcol, hdata,
    withBytes_some]

theorem execEncBlk_of_too_long {s : State} (h : s.cfg.ibufSize < s.inLen.toNat) (isEnd : Bool) :
    execEncBlk isEnd s = .next (raise .eRange s) := require_of_false (Nat.not_le.2 h) ..

theorem execEncBlk_of_line_zero {s : State} (hlen : s.inLen.toNat ≤ s.cfg.ibufSize) (h : s.line = 0) (isEnd : Bool) :
    execEncBlk isEnd s = .next (raise .eRange s) := by
  rw [execEncBlk, require_of_true hlen, require_of_false fun hline => (one_le_toNat_iff _).1 hline h]

theorem execEncBlk_of_col_ge {s : State} (hlen : s.inLen.toNat ≤ s.cfg.ibufSize) (hline : s.line ≠ 0)
    (h : s.line.toNat ≤ s.col.toNat) (isEnd : Bool) : execEncBlk isEnd s = .next (raise .eRange s) := by
  rw [execEncBlk, require_of_true hlen, require_of_true ((one_le_toNat_iff _).2 hline),
    require_of_false (Nat.not_lt.2 h)]

/-- Settles O33: with the operands in range the command delivers the encoded chunk, and the first check that fails
decides the fault. -/
theorem encBlkEncodesTheChunk : Obligations.EncBlkEncodesTheChunk := by
  refine ⟨⟨decode_encode (.encBlk false), decode_encode (.encBlk true)⟩, ?completes, fun s isEnd =>
    ⟨fun h => execEncBlk_of_too_long h isEnd, fun hlen h => execEncBlk_of_line_zero hlen h isEnd,
      fun hlen hline h => execEncBlk_of_col_ge hlen hline h isEnd, ?overflow⟩⟩
  case completes =>
    intro s data isEnd hcfg hchunk hcol hfits
    obtain ⟨-, ⟨-, hsize⟩, -⟩ := hcfg
    have hafter := encodeBytes_col_lt hcol data isEnd
    have hcolNat := toNat_ofNat_of_lt (hafter.trans s.line.isLt)
    have hexec := (execEncBlk_of_chunk hchunk hcol isEnd).trans (deliver_of_fits hfits _)
    exact ⟨_, hexec, outputIs_complete_putOutput (hfits.trans_lt hsize) _, hcolNat, hcolNat.trans_lt hafter,
      fun reg hreg => readReg_complete_putEncoded hreg .., rfl⟩
  case overflow =>
    exact fun data hchunk hcol hlong =>
      (execEncBlk_of_chunk hchunk hcol isEnd).trans (deliver_of_too_long hlong _)

theorem execEncMaxlen_of_fits {s : State} (hline : s.line ≠ 0)
    (hfits : encMaxLen s.cfg.maxLen s.n.toNat s.line.toNat < 2 ^ 64) :
    execEncMaxlen s =
      .next (complete { s with maxlen := BitVec.ofNat 64 (encMaxLen s.cfg.maxLen s.n.toNat s.line.toNat) }) := by
  rw [execEncMaxlen, require_of_true ((one_le_toNat_iff _).2 hline), require_of_true hfits]

theorem execEncMaxlen_of_line_zero {s : State} (h : s.line = 0) : execEncMaxlen s = .next (raise .eRange s) :=
  require_of_false (fun hline => (one_le_toNat_iff _).1 hline h) ..

theorem execEncMaxlen_of_too_big {s : State} (hline : s.line ≠ 0)
    (hbig : 2 ^ 64 ≤ encMaxLen s.cfg.maxLen s.n.toNat s.line.toNat) : execEncMaxlen s = .next (raise .eRange s) := by
  rw [execEncMaxlen, require_of_true ((one_le_toNat_iff _).2 hline), require_of_false (Nat.not_lt.2 hbig)]

/-- Settles O34: a bound that fits goes into `MAXLEN`, or one of the two checks fails. -/
theorem encMaxlenPutsTheBoundInMaxlen : Obligations.EncMaxlenPutsTheBoundInMaxlen := by
  refine ⟨decode_encode .encMaxlen, fun s => ⟨fun hline hfits => ?completes, execEncMaxlen_of_line_zero,
    execEncMaxlen_of_too_big⟩⟩
  case completes =>
    have hexec := execEncMaxlen_of_fits hline hfits
    exact ⟨_, hexec, toNat_ofNat_of_lt hfits, rfl⟩

/-- Settles O35: neither the results of the two commands nor the fault entry change anything else. -/
theorem encoderCommandsFrame : Obligations.EncoderCommandsFrame := by
  constructor
  · intro s t isEnd h
    rcases execEncBlk_next h with ⟨data, -, -, -, rfl⟩ | rfl | rfl
    · exact ⟨fun reg hreg => readReg_complete_putEncoded hreg .., fun _ => rfl, fun _ => rfl, rfl, rfl, rfl⟩
    all_goals exact ⟨sameRegsBut_raise (by decide) _ s, fun _ => rfl, fun _ => rfl, rfl, rfl, rfl⟩
  · intro s t h
    rcases execEncMaxlen_next h with ⟨-, -, rfl⟩ | rfl
    · exact ⟨fun reg hreg => readReg_complete_putMaxlen hreg _ s, fun b i => by rw [buffer_complete_putMaxlen],
        rfl, rfl, rfl⟩
    · exact ⟨sameRegsBut_raise (by decide) _ s, fun b i => by rw [buffer_raise], rfl, rfl, rfl⟩

end Sys2Proof.Machine
end

section
/-! PROOFS. The family 42_decoder.md: the transition table, quiet runs of the decoder, the terminators, the round
trip with the encoder, and the two commands. -/

namespace Sys2Proof.Machine

/-! ## The transition table (R140) -/

/-- The bytes with a column of their own in the table of R140: CR, LF, `.`, `=`, `y`. -/
def tableColumns : List Byte := [0x0D#8, 0x0A#8, 0x2E#8, 0x3D#8, 0x79#8]

theorem not_mem_tableColumns {c : Byte} :
    c ∉ tableColumns ↔ c ≠ 0x0D#8 ∧ c ≠ 0x0A#8 ∧ c ≠ 0x2E#8 ∧ c ≠ 0x3D#8 ∧ c ≠ 0x79#8 := by simp [tableColumns]

/-- A row of the table is what it holds in its six columns. -/
theorem eq_tableRow {f : Byte → DecCell} {c : Byte} {cr lf dot eqs y other : DecCell} (hcr : f 0x0D#8 = cr)
    (hlf : f 0x0A#8 = lf) (hdot : f 0x2E#8 = dot) (heqs : f 0x3D#8 = eqs) (hy : f 0x79#8 = y)
    (hother : c ∉ tableColumns → f c = other) : f c = tableRow cr lf dot eqs y other c := by
  unfold tableRow
  split_ifs with h1 h2 h3 h4 h5
  · rwa [h1]
  · rwa [h2]
  · rwa [h3]
  · rwa [h4]
  · rwa [h5]
  · exact hother (not_mem_tableColumns.2 ⟨h1, h2, h3, h4, h5⟩)

theorem plainCell_of_ne {c : Byte} (hcr : c ≠ 0x0D#8) (hlf : c ≠ 0x0A#8) (hesc : c ≠ 0x3D#8) :
    plainCell c = emits (c - 42#8) := by
  rw [plainCell, if_neg hesc, if_neg hcr, if_neg hlf, emits]

/-- A byte without a column of its own ends whatever is pending: it is plain, or it follows the escape byte. -/
theorem decStep_of_other {c : Byte} (h : c ∉ tableColumns) (mode : DecMode) (s : DecState) :
    decStep mode s c = if s = .eq ∨ s = .crlfeq then emits (c - 106#8) else emits (c - 42#8) := by
  obtain ⟨hcr, hlf, hdot, hesc, hy⟩ := not_mem_tableColumns.1 h
  cases s <;> simp [decStep, plainCell_of_ne hcr hlf hesc, hcr, hlf, hdot, hesc, hy, escapedCell, emits]

/-- Settles O36: each row in its six columns. -/
theorem transitionTable : Obligations.TransitionTable := by
  intro mode c
  refine ⟨?none, ?eq, ?cr, ?crlf, ?crlfdt, ?crlfdtcr, ?crlfeq⟩
  case none | eq | cr | crlfdt => exact eq_tableRow rfl rfl rfl rfl rfl fun h => decStep_of_other h mode _
  case crlf | crlfdtcr | crlfeq =>
    refine eq_tableRow ?_ ?_ ?_ ?_ ?_ fun h => decStep_of_other h mode _
    all_goals cases mode <;> rfl

/-! ## Quiet runs

What both decode functions do with bytes that complete no terminator (R141, R142). -/

/-- In one mode the bytes lead from state `s` to the state given last, with the output `out`, and no terminator is
reported on the way. -/
inductive Reads (mode : DecMode) : DecState → List Byte → List Byte → DecState → Prop
  | nil (s : DecState) : Reads mode s [] [] s
  | cons {s s' : DecState} {c : Byte} {rest out : List Byte} (hquiet : (decStep mode s c).marker = .none)
      (hrest : Reads mode (decStep mode s c).next rest out s') :
      Reads mode s (c :: rest) ((decStep mode s c).out.toList ++ out) s'

/-- A run of one byte, from the byte's cell. -/
theorem Reads.single {mode : DecMode} {s s' : DecState} {c : Byte} {o : Option Byte}
    (h : decStep mode s c = ⟨s', o, .none⟩) : Reads mode s [c] o.toList s' := by
  have hrun := Reads.cons (show (decStep mode s c).marker = .none by rw [h]) (.nil _)
  rwa [h, List.append_nil] at hrun

theorem Reads.append {mode : DecMode} {s s1 s2 : DecState} {d1 d2 out1 out2 : List Byte}
    (h1 : Reads mode s d1 out1 s1) (h2 : Reads mode s1 d2 out2 s2) : Reads mode s (d1 ++ d2) (out1 ++ out2) s2 := by
  induction h1 with
  | nil => exact h2
  | cons hquiet _ ih =>
    rw [List.append_assoc]
    exact .cons hquiet (ih h2)

theorem Reads.decodeRun_eq {mode : DecMode} {s s' : DecState} {data out : List Byte} (h : Reads mode s data out s') :
    decodeRun mode data s = (out, s') := by
  induction h with
  | nil => rfl
  | cons _ _ ih => rw [decodeRun, ih]

theorem Reads.length_le {mode : DecMode} {s s' : DecState} {data out : List Byte} (h : Reads mode s data out s') :
    out.length ≤ data.length := by
  induction h with
  | nil => exact Nat.le_refl 0
  | @cons s _ c _ _ _ _ ih =>
    have hcell : (decStep mode s c).out.toList.length ≤ 1 := Option.length_toList_le
    rw [List.length_append, List.length_cons]
    omega

/-- Behind a quiet run the incremental function goes on from the state the run has left. -/
theorem Reads.decodeIncremental_append {s s' : DecState} {data out : List Byte} (h : Reads .inc s data out s')
    (rest : List Byte) :
    decodeIncremental (data ++ rest) s =
      ⟨out ++ (decodeIncremental rest s').out, (decodeIncremental rest s').marker, (decodeIncremental rest s').state,
        data.length + (decodeIncremental rest s').consumed⟩ := by
  induction h with
  | nil => simp
  | cons hquiet _ ih =>
    rw [List.cons_append, decodeIncremental, if_pos hquiet, ih, List.append_assoc, List.length_cons,
      Nat.add_right_comm]

theorem Reads.decodeIncremental_eq {s s' : DecState} {data out : List Byte} (h : Reads .inc s data out s') :
    decodeIncremental data s = ⟨out, .none, s', data.length⟩ := by
  simpa [decodeIncremental] using h.decodeIncremental_append []

/-! ## Terminators (R138, R139, R143) -/

/-- The byte `c` completes the terminator `e` in state `s`, and `next` is the state after it. -/
inductive Terminates : DecState → Byte → EndMarker → DecState → Prop
  | control : Terminates .crlfdtcr 0x0A#8 .control .crlf
  | article : Terminates .crlfeq 0x79#8 .article .none

theorem Terminates.decStep_eq {s next : DecState} {c : Byte} {e : EndMarker} (h : Terminates s c e next) :
    decStep .inc s c = ⟨next, none, e⟩ := by cases h <;> rfl

theorem Terminates.marker_ne {s next : DecState} {c : Byte} {e : EndMarker} (h : Terminates s c e next) :
    e ≠ .none := by cases h <;> decide

@[simp] theorem plainCell_marker (c : Byte) : (plainCell c).marker = .none := by
  unfold plainCell
  split_ifs <;> rfl

/-- No other cell of the table has an end marker. -/
theorem terminates_of_marker_ne {s : DecState} {c : Byte} (h : (decStep .inc s c).marker ≠ .none) :
    Terminates s c (decStep .inc s c).marker (decStep .inc s c).next := by
  cases s with
  | none => exact absurd (plainCell_marker c) h
  | eq => exact absurd rfl h
  | cr | crlfdt | crlf =>
    refine absurd ?_ h
    simp only [decStep]
    split_ifs <;> simp
  | crlfdtcr =>
    by_cases hc : c = 0x0A#8
    · rw [hc]
      exact .control
    · exact absurd (by simp [decStep, hc]) h
  | crlfeq =>
    by_cases hc : c = 0x79#8
    · rw [hc]
      exact .article
    · exact absurd (by simp [decStep, escapedCell, hc]) h

/-- A quiet run and a terminator: the bytes after it are not examined. -/
theorem Reads.decodeIncremental_terminator {s s1 next : DecState} {front out : List Byte} {c : Byte} {e : EndMarker}
    (h : Reads .inc s front out s1) (hc : Terminates s1 c e next) (rest : List Byte) :
    decodeIncremental (front ++ c :: rest) s = ⟨out, e, next, front.length + 1⟩ := by
  have hlast : decodeIncremental (c :: rest) s1 = ⟨[], e, next, 1⟩ := by
    simp [decodeIncremental, hc.decStep_eq, hc.marker_ne]
  simp [h.decodeIncremental_append, hlast]

/-- All that the incremental function can do: read the whole chunk quietly, or its front up to a terminator. -/
theorem reads_or_terminates (data : List Byte) (s : DecState) :
    (∃ out s', Reads .inc s data out s') ∨
      ∃ front c rest out s1 e next, data = front ++ c :: rest ∧ Reads .inc s front out s1 ∧ Terminates s1 c e next := by
  induction data generalizing s with
  | nil => exact .inl ⟨[], s, .nil s⟩
  | cons c rest ih =>
    by_cases hquiet : (decStep .inc s c).marker = .none
    · rcases ih (decStep .inc s c).next with ⟨out, s', hrun⟩ | ⟨front, c', rest', out, s1, e, next, rfl, hrun, hc⟩
      · exact .inl ⟨_, s', .cons hquiet hrun⟩
      · exact .inr ⟨c :: front, c', rest', _, s1, e, next, rfl, .cons hquiet hrun, hc⟩
    · exact .inr ⟨[], c, rest, [], s, _, _, rfl, .nil s, terminates_of_marker_ne hquiet⟩

/-! ## Chunks (R141, R142, R144, R147) -/

theorem decodeRun_append (mode : DecMode) (d1 d2 : List Byte) (s : DecState) :
    decodeRun mode (d1 ++ d2) s =
      ((decodeRun mode d1 s).1 ++ (decodeRun mode d2 (decodeRun mode d1 s).2).1,
        (decodeRun mode d2 (decodeRun mode d1 s).2).2) := by
  induction d1 generalizing s with
  | nil => rfl
  | cons c d1 ih => rw [List.cons_append, decodeRun, ih, decodeRun, List.append_assoc]

/-- A reported terminator makes the answer independent of what follows the bytes consumed. -/
theorem decodeIncremental_append_of_marker_ne {d1 : List Byte} {s : DecState}
    (h : (decodeIncremental d1 s).marker ≠ .none) (d2 : List Byte) :
    decodeIncremental (d1 ++ d2) s = decodeIncremental d1 s := by
  rcases reads_or_terminates d1 s with ⟨out, s', hrun⟩ | ⟨front, c, rest, out, s1, e, next, rfl, hrun, hc⟩
  · exact absurd (by rw [hrun.decodeIncremental_eq]) h
  · rw [List.append_assoc, List.cons_append, hrun.decodeIncremental_terminator hc, hrun.decodeIncremental_terminator hc]

/-- Settles O37: the state is all a quiet run leaves, and a terminator ends the work. -/
theorem decodeIsResumable : Obligations.DecodeIsResumable := by
  refine ⟨fun d1 d2 isRaw => decodeRun_append (blockMode isRaw) d1 d2, fun d1 d2 s => ⟨fun hquiet => ?_,
    fun hmarker => decodeIncremental_append_of_marker_ne hmarker d2⟩⟩
  rcases reads_or_terminates d1 s with ⟨out, s', hrun⟩ | ⟨front, c, rest, out, s1, e, next, rfl, hrun, hc⟩
  · rw [hrun.decodeIncremental_append, hrun.decodeIncremental_eq]
  · rw [hrun.decodeIncremental_terminator hc] at hquiet
    exact absurd hquiet hc.marker_ne

/-- Settles O39: the bounds are those of a quiet run, and the state is that of the terminator. -/
theorem incrementalStopsAtTheTerminator : Obligations.IncrementalStopsAtTheTerminator := by
  intro data s
  rcases reads_or_terminates data s with ⟨out, s', hrun⟩ | ⟨front, c, rest, out, s1, e, next, rfl, hrun, hc⟩
  · rw [hrun.decodeIncremental_eq]
    exact ⟨Nat.le_refl _, hrun.length_le, fun _ => rfl, fun h => absurd rfl h, nofun, nofun⟩
  · have htake : (front ++ c :: rest).take (front.length + 1) = front ++ [c] := List.take_length_add_append 1
    rw [hrun.decodeIncremental_terminator hc]
    refine ⟨by simp, Nat.le_succ_of_le hrun.length_le, fun h => absurd h hc.marker_ne,
      fun _ => ⟨Nat.succ_pos _, fun after => ?_⟩, ?_, ?_⟩
    · rw [htake, List.append_assoc]
      exact hrun.decodeIncremental_terminator hc after
    all_goals cases hc <;> simp

/-! ## What a state remembers (R143) -/

/-- The bytes just read that a state stands for. -/
def lastRead : DecState → List Byte
  | .crlf => crlf
  | .cr => [0x0D#8]
  | .crlfdt => crlf ++ [0x2E#8]
  | .crlfdtcr => crlf ++ [0x2E#8, 0x0D#8]
  | .crlfeq => crlf ++ [0x3D#8]
  | .none | .eq => []

theorem lastRead_plainCell (seen : List Byte) (c : Byte) : lastRead (plainCell c).next <:+ seen ++ [c] := by
  unfold plainCell
  split_ifs with hesc hcr hlf
  · exact List.nil_suffix
  · rw [hcr]
    exact List.suffix_append seen [0x0D#8]
  · exact List.nil_suffix
  · exact List.nil_suffix

theorem lastRead_next (mode : DecMode) (s : DecState) (c : Byte) :
    lastRead (decStep mode s c).next <:+ lastRead s ++ [c] := by
  cases s with
  | none => exact lastRead_plainCell [] c
  | eq => exact List.nil_suffix
  | crlfeq =>
    simp only [decStep]
    split <;> exact List.nil_suffix
  | cr | crlfdt =>
    simp only [decStep]
    split
    case isTrue hc => rw [hc]; exact List.suffix_rfl
    case isFalse => exact lastRead_plainCell ..
  | crlfdtcr =>
    simp only [decStep]
    split
    case isTrue hc => rw [hc]; exact List.suffix_append (crlf ++ [0x2E#8]) crlf
    case isFalse => exact lastRead_plainCell ..
  | crlf =>
    simp only [decStep]
    split_ifs with hdot hesc
    · rw [hdot.1]; exact List.suffix_rfl
    · rw [hesc.1]; exact List.suffix_rfl
    · exact lastRead_plainCell ..

theorem Reads.lastRead_suffix {mode : DecMode} {s s' : DecState} {data out : List Byte}
    (h : Reads mode s data out s') : lastRead s' <:+ lastRead s ++ data := by
  induction h with
  | nil s => rw [List.append_nil]
  | @cons s _ c rest _ _ _ ih =>
    have hnext := List.suffix_append_self_iff (l₃ := rest).2 (lastRead_next mode s c)
    rw [List.append_assoc] at hnext
    exact ih.trans hnext

/-- Settles O40: the state in which a byte completes a terminator remembers the bytes of the terminator before it. -/
theorem terminatorsAreTheTwoPatterns : Obligations.TerminatorsAreTheTwoPatterns := by
  intro data
  rcases reads_or_terminates data .crlf with ⟨out, s', hrun⟩ | ⟨front, c, rest, out, s1, e, next, rfl, hrun, hc⟩
  · rw [hrun.decodeIncremental_eq]
    exact ⟨nofun, nofun⟩
  · have hread : lastRead s1 ++ [c] <:+ crlf ++ front ++ [c] := List.suffix_append_self_iff.2 hrun.lastRead_suffix
    have htake : (front ++ c :: rest).take (front.length + 1) = front ++ [c] := List.take_length_add_append 1
    rw [hrun.decodeIncremental_terminator hc, htake, ← List.append_assoc]
    cases hc with
    | control => exact ⟨fun _ => hread, nofun⟩
    | article => exact ⟨nofun, fun _ => hread⟩

/-! ## The encoder's output is read back (R148)

Between two input bytes the decoder is in state `CRLF` at column 0 and in state `NONE` at every other column. -/

/-- The decoder's state when the encoder is at column `col`. -/
def lineState (col : Nat) : DecState := if col = 0 then .crlf else .none

@[simp] theorem lineState_zero : lineState 0 = .crlf := rfl

theorem lineState_of_ne_zero {col : Nat} (h : col ≠ 0) : lineState col = .none := if_neg h

theorem lineState_cases (col : Nat) : (col = 0 ∧ lineState col = .crlf) ∨ lineState col = .none := by
  rcases Nat.eq_zero_or_pos col with rfl | hpos
  · exact .inl ⟨rfl, rfl⟩
  · exact .inr (lineState_of_ne_zero (Nat.ne_of_gt hpos))

/-- An unescaped character is plain: it is none of the critical values, and no `.` at the start of a line. -/
theorem decStep_of_not_mustEscape {e : Byte} {col : Nat} (h : mustEscape e col = false) (mode : DecMode) :
    decStep mode (lineState col) e = ⟨.none, some (e - 42#8), .none⟩ := by
  obtain ⟨hcritical, hdot⟩ := not_mustEscape_iff.1 h
  simp only [criticalValues, List.mem_cons, List.not_mem_nil, or_false, not_or] at hcritical
  obtain ⟨-, hlf, hcr, hesc⟩ := hcritical
  have hplain : plainCell e = ⟨.none, some (e - 42#8), .none⟩ := plainCell_of_ne hcr hlf hesc
  rcases lineState_cases col with ⟨hcol, hs⟩ | hs <;> rw [hs]
  · have hne : e ≠ 0x2E#8 := fun he => hdot ⟨he, hcol⟩
    simp [decStep, hne, hesc, hplain]
  · exact hplain

/-- The escape byte leads to a state in which every byte but `y` is escaped data. -/
theorem decStep_escByte (mode : DecMode) (col : Nat) :
    ∃ s, decStep mode (lineState col) escByte = ⟨s, none, .none⟩ ∧ ∀ c ≠ 0x79#8, decStep mode s c = escapedCell c := by
  rcases lineState_cases col with ⟨-, hs⟩ | hs <;> rw [hs]
  · cases mode with
    | inc => exact ⟨.crlfeq, rfl, fun c hc => by simp [decStep, hc]⟩
    | blk | blkRaw => exact ⟨.eq, rfl, fun _ _ => rfl⟩
  · exact ⟨.eq, rfl, fun _ _ => rfl⟩

theorem reads_encodeChars (mode : DecMode) (col : Nat) (b : Byte) :
    Reads mode (lineState col) (encodeChars col b) [b] .none := by
  cases hesc : mustEscape (b + 42#8) col with
  | false =>
    have hcell := decStep_of_not_mustEscape hesc mode
    rw [BitVec.add_sub_cancel] at hcell
    rw [encodeChars_of_not_mustEscape hesc]
    exact .single hcell
  | true =>
    have hpair : ∀ v ∈ escapedValues, v ≠ 0x79#8 := by decide
    obtain ⟨s, hfirst, hsecond⟩ := decStep_escByte mode col
    have hcell := hsecond _ (hpair _ (escaped_mem hesc))
    have hsum : b + 42#8 + 64#8 - 106#8 = b := by
      rw [BitVec.add_assoc]
      exact BitVec.add_sub_cancel b 106#8
    rw [escapedCell, hsum] at hcell
    rw [encodeChars_of_mustEscape hesc]
    exact (Reads.single hfirst).append (.single hcell)

theorem reads_crlf (mode : DecMode) (col : Nat) : Reads mode (lineState col) crlf [] .crlf := by
  have hcr : decStep mode (lineState col) 0x0D#8 = ⟨.cr, none, .none⟩ := by
    rcases lineState_cases col with ⟨-, hs⟩ | hs <;> rw [hs] <;> rfl
  exact (Reads.single hcr).append (.single (o := none) rfl)

theorem reads_encodeByte (mode : DecMode) (lineSize col : Nat) (b : Byte) :
    Reads mode (lineState col) (encodeByte lineSize col b).1 [b] (lineState (encodeByte lineSize col b).2) := by
  have hchars := reads_encodeChars mode col b
  have hlen := encodeChars_length col b
  rcases Nat.lt_or_ge (col + (encodeChars col b).length) lineSize with hroom | hfull
  · have hcol : lineState (col + (encodeChars col b).length) = .none := lineState_of_ne_zero (by omega)
    rw [encodeByte_of_room hroom, hcol]
    exact hchars
  · rw [encodeByte_of_full hfull]
    exact hchars.append (reads_crlf mode 1)

theorem reads_encodeBytes (mode : DecMode) (d : List Byte) (lineSize col : Nat) (e : Bool) :
    Reads mode (lineState col) (encodeBytes d lineSize col e).1 d (lineState (encodeBytes d lineSize col e).2) := by
  induction d generalizing col with
  | nil => exact .nil _
  | cons b rest ih => exact (reads_encodeByte mode lineSize col b).append (ih _)

/-- Settles O38: the encoder's output is a quiet run in every mode, and runs follow one another with the column. -/
theorem encodeDecodeRoundTrip : Obligations.EncodeDecodeRoundTrip := by
  intro d d' lineSize isRaw e e' _
  have hblock := reads_encodeBytes (blockMode isRaw) d lineSize 0 e
  have hsplit := hblock.append (reads_encodeBytes (blockMode isRaw) d' lineSize _ e')
  have hinc := (reads_encodeBytes .inc d lineSize 0 e).decodeIncremental_eq
  rw [lineState_zero] at hblock hsplit hinc
  rw [hinc]
  exact ⟨congrArg Prod.fst hblock.decodeRun_eq, rfl, rfl, rfl, congrArg Prod.fst hsplit.decodeRun_eq⟩

/-! ## A payload and its terminator (R143, R173, R245) -/

/-- A line under way ends in a character, which is no LF. -/
theorem encodeBytes_col_of_ends_in_crlf {d : List Byte} {lineSize : Nat} {e : Bool} (hline : 1 ≤ lineSize)
    (h : crlf <:+ (encodeBytes d lineSize 0 e).1) : (encodeBytes d lineSize 0 e).2 = 0 := by
  obtain ⟨lines, last, hout, hcol, -, -, hshape⟩ := encodedLinesHaveTheirShape d lineSize e hline
  obtain ⟨hchars, -, -⟩ := hshape last List.mem_cons_self
  rw [hcol, List.length_eq_zero_iff]
  refine (List.eq_nil_or_concat last).resolve_right fun ⟨front, x, hlast⟩ => ?_
  obtain ⟨-, hne, -⟩ := hchars x (by simp [hlast])
  obtain ⟨before, hends⟩ := h
  rw [hout, hlast] at hends
  have hx : 0x0A#8 = x := by simpa [crlf] using congrArg List.getLast? hends
  exact hne hx.symm

theorem reads_payload (d : List Byte) {lineSize : Nat} (hline : 1 ≤ lineSize) :
    Reads .inc .crlf (payload d lineSize) d .crlf := by
  have hrun := reads_encodeBytes .inc d lineSize 0 true
  rw [lineState_zero] at hrun
  unfold payload terminate
  split
  case isTrue hends =>
    have hsuffix : crlf <:+ (encodeBytes d lineSize 0 true).1 := hends ▸ List.drop_suffix ..
    rwa [encodeBytes_col_of_ends_in_crlf hline hsuffix] at hrun
  case isFalse =>
    have hlong := hrun.append (reads_crlf .inc _)
    rwa [List.append_nil] at hlong

/-- Settles O41: the payload is a quiet run that ends in CR LF, and both terminators complete there. -/
theorem payloadThenTerminatorDecodes : Obligations.PayloadThenTerminatorDecodes := by
  intro d lineSize rest hline
  have hrun := reads_payload d hline
  have hesc : Reads .inc .crlf [0x3D#8] [] .crlfeq := .single (o := none) rfl
  have hdot : Reads .inc .crlf [0x2E#8, 0x0D#8] [] .crlfdtcr :=
    (Reads.single (o := none) rfl).append (.single (o := none) rfl)
  have harticle := (hrun.append hesc).decodeIncremental_terminator .article rest
  have hcontrol := (hrun.append hdot).decodeIncremental_terminator .control rest
  exact ⟨by simpa using harticle, by simpa using hcontrol⟩

/-! ## The commands (R146, R147) -/

theorem inState_eq_none_iff (s : State) : inState s = none ↔ dstateField s.dstate = 7 := decStateOfBits_eq_none_iff _

theorem withInState_of_none {s : State} (h : inState s = none) (k : DecState → Result) :
    withInState s k = .next (raise .eState s) := by simp [withInState, h]

@[simp] theorem inState_complete (s : State) : inState (complete s) = inState s := rfl

@[simp] theorem inState_putOutput (out : List Byte) (s : State) : inState (putOutput out s) = inState s := rfl

@[simp] theorem inState_putDecode (d : DecState) (e : EndMarker) (k : Len) (s : State) :
    inState (putDecode d e k s) = some d := by simp [inState]

theorem chunkIs_iff_chunkFront {s : State} {data : List Byte} :
    ChunkIs s data ↔ s.inLen.toNat ≤ s.cfg.ibufSize ∧ chunkFront s = data ∧ data.length = s.inLen.toNat :=
  and_congr_right fun _ => readBytes_eq_some

/-! What each command answers, in the order of its checks -/

theorem execDecBlk_of_too_long {s : State} (h : s.cfg.ibufSize < s.inLen.toNat) (isRaw : Bool) :
    execDecBlk isRaw s = .next (raise .eRange s) := require_of_false (Nat.not_le.2 h) ..

theorem execDecBlk_of_no_state {s : State} (hlen : s.inLen.toNat ≤ s.cfg.ibufSize) (h : dstateField s.dstate = 7)
    (isRaw : Bool) : execDecBlk isRaw s = .next (raise .eState s) := by
  rw [execDecBlk, require_of_true hlen, withInState_of_none ((inState_eq_none_iff s).2 h)]

theorem execDecBlk_of_chunk {s : State} {data : List Byte} {s0 : DecState} (h : ChunkIs s data)
    (hstate : inState s = some s0) (isRaw : Bool) :
    execDecBlk isRaw s =
      deliver s (decodeBlock data isRaw s0).1 (putDecode (decodeBlock data isRaw s0).2 .none s.inLen s) := by
  obtain ⟨hlen, hdata⟩ := h
  rw [execDecBlk, require_of_true hlen, withInState_of_some hstate, hdata, withBytes_some]

theorem execDecInc_of_too_long {s : State} (h : s.cfg.ibufSize < s.inLen.toNat) :
    execDecInc s = .next (raise .eRange s) := require_of_false (Nat.not_le.2 h) ..

theorem execDecInc_of_no_state {s : State} (hlen : s.inLen.toNat ≤ s.cfg.ibufSize) (h : dstateField s.dstate = 7) :
    execDecInc s = .next (raise .eState s) := by
  rw [execDecInc, require_of_true hlen, withInState_of_none ((inState_eq_none_iff s).2 h)]

/-- `DEC.INC` needs no more than written bytes up to a terminator, or to the end of the chunk. -/
theorem execDecInc_of_front {s : State} {s0 : DecState} {q : IncResult} (hlen : s.inLen.toNat ≤ s.cfg.ibufSize)
    (hstate : inState s = some s0) (hq : decodeIncremental (chunkFront s) s0 = q)
    (hfront : q.marker ≠ .none ∨ (chunkFront s).length = s.inLen.toNat) :
    execDecInc s = deliver s q.out (putDecode q.state q.marker (BitVec.ofNat 64 q.consumed) s) := by
  have hresult : incResult s s0 = some q := by
    rw [incResult, hq]
    exact if_pos hfront
  rw [execDecInc, require_of_true hlen, withInState_of_some hstate, hresult]

theorem execDecInc_of_chunk {s : State} {data : List Byte} {s0 : DecState} {q : IncResult} (h : ChunkIs s data)
    (hstate : inState s = some s0) (hq : decodeIncremental data s0 = q) :
    execDecInc s = deliver s q.out (putDecode q.state q.marker (BitVec.ofNat 64 q.consumed) s) := by
  obtain ⟨hlen, rfl, hlength⟩ := chunkIs_iff_chunkFront.1 h
  exact execDecInc_of_front hlen hstate hq (.inr hlength)

/-- Settles O42: with the operands in range the command delivers the decoded chunk, and the first check that fails
decides the fault. -/
theorem decBlkDecodesTheChunk : Obligations.DecBlkDecodesTheChunk := by
  refine ⟨⟨decode_encode (.decBlk false), decode_encode (.decBlk true)⟩, ?completes, fun s isRaw =>
    ⟨fun h => execDecBlk_of_too_long h isRaw, fun hlen h => execDecBlk_of_no_state hlen h isRaw, ?overflow⟩⟩
  case completes =>
    intro s data s0 isRaw hcfg hchunk hstate hfits
    obtain ⟨-, ⟨-, hsize⟩, -⟩ := hcfg
    have hexec := (execDecBlk_of_chunk hchunk hstate isRaw).trans (deliver_of_fits hfits _)
    exact ⟨_, hexec, outputIs_complete_putOutput (hfits.trans_lt hsize) _, by simp, rfl, rfl, rfl⟩
  case overflow =>
    exact fun data s0 hchunk hstate hlong =>
      (execDecBlk_of_chunk hchunk hstate isRaw).trans (deliver_of_too_long hlong _)

/-- Settles O43: as for `DEC.BLK`; the count fits its register, being at most `IN_LEN`. -/
theorem decIncDecodesToTheTerminator : Obligations.DecIncDecodesToTheTerminator := by
  refine ⟨decode_encode .decInc, ?completes, fun s => ⟨execDecInc_of_too_long, execDecInc_of_no_state, ?overflow⟩⟩
  case completes =>
    intro s data s0 hcfg hchunk hstate hfits
    obtain ⟨⟨-, hinSize⟩, ⟨-, hsize⟩, -⟩ := hcfg
    have hexec := (execDecInc_of_chunk hchunk hstate rfl).trans (deliver_of_fits hfits _)
    have hconsumed := (decodeIncremental_consumed_le data s0).trans hchunk.length_le
    exact ⟨_, hexec, outputIs_complete_putOutput (hfits.trans_lt hsize) _, by simp, rfl,
      toNat_ofNat_of_lt (hconsumed.trans_lt hinSize), rfl⟩
  case overflow =>
    exact fun data s0 hchunk hstate hlong =>
      (execDecInc_of_chunk hchunk hstate rfl).trans (deliver_of_too_long hlong _)

/-- Settles O44: the result is that of the written front, whether it ends in a terminator or stops short without one. -/
theorem decIncExaminesNothingAfterTheTerminator : Obligations.DecIncExaminesNothingAfterTheTerminator := by
  refine fun s s0 hlen hstate => ⟨fun hmarker hfits => ?_, fun hmarker hfront =>
    execDecInc_unwritten hlen hstate hfront hmarker⟩
  have hexec := (execDecInc_of_front hlen hstate rfl (.inl hmarker)).trans (deliver_of_fits hfits _)
  exact ⟨_, hexec, readBytes_bytesFrom _, rfl⟩

theorem readReg_complete_putDecoded {reg : Reg} (h : reg ∉ [Reg.outLen, .dstate, .dend, .consumed, .status])
    (out : List Byte) (d : DecState) (e : EndMarker) (k : Len) (s : State) :
    readReg (complete (putOutput out (putDecode d e k s))) reg = readReg s reg := by
  cases reg with
  | outLen | dstate | dend | consumed | status => simp at h
  | _ => rfl

/-- The two forms of what a decode command answers. -/
theorem exec_decode_next {s t : State} {isRaw : Bool}
    (h : exec (.decBlk isRaw) s = .next t ∨ exec .decInc s = .next t) :
    (∃ out d e k, t = complete (putOutput out (putDecode d e k s))) ∨ ∃ c, t = raise c s := by
  rcases h with h | h
  · rcases execDecBlk_next h with ⟨data, s0, -, -, -, h⟩ | h | h | h
    · exact .inl ⟨_, _, _, _, h⟩
    all_goals exact .inr ⟨_, h⟩
  · rcases execDecInc_next h with ⟨q, s0, -, -, -, -, h⟩ | h | h | h
    · exact .inl ⟨_, _, _, _, h⟩
    all_goals exact .inr ⟨_, h⟩

/-- Settles O45: neither the results of the two commands nor the fault entry change anything else. -/
theorem decoderCommandsFrame : Obligations.DecoderCommandsFrame := by
  intro s t isRaw h
  rcases exec_decode_next h with ⟨out, d, e, k, rfl⟩ | ⟨c, rfl⟩
  · exact ⟨fun reg hreg => readReg_complete_putDecoded hreg .., fun _ => rfl, fun _ => rfl, rfl, rfl, rfl⟩
  · exact ⟨sameRegsBut_raise (by decide) c s, fun _ => rfl, fun _ => rfl, rfl, rfl, rfl⟩

end Sys2Proof.Machine
end

section
/-! PROOFS. The family 43_framer.md: numbers in text, valid arguments, the texts of the articles, the parts of the data, and
the two commands. -/

namespace Sys2Proof.Machine

/-! ## Decimal text (R176)

`dec n` is the library's list of the digits of `n`, most significant first, written in ASCII. -/

/-- The ASCII code of a decimal digit. -/
def decimalDigit (d : Nat) : Byte := BitVec.ofNat 8 (0x30 + d)

/-- The value of a decimal text with one more digit behind it (R176). -/
def appendDecimal (acc : Nat) (ch : Byte) : Nat := 10 * acc + (ch.toNat - 0x30)

theorem decimalDigit_toNat {d : Nat} (h : d < 10) : (decimalDigit d).toNat = 0x30 + d := by
  rw [decimalDigit, BitVec.toNat_ofNat]
  omega

theorem appendDecimal_decimalDigit {d : Nat} (h : d < 10) (acc : Nat) :
    appendDecimal acc (decimalDigit d) = d + 10 * acc := by
  rw [appendDecimal, decimalDigit_toNat h]
  omega

theorem decDigits_of_lt {n : Nat} (h : n < 10) (fuel : Nat) (acc : List Byte) :
    decDigits (fuel + 1) n acc = decimalDigit n :: acc := if_pos h

theorem decDigits_of_ge {n : Nat} (h : 10 ≤ n) (fuel : Nat) (acc : List Byte) :
    decDigits (fuel + 1) n acc = decDigits fuel (n / 10) (decimalDigit (n % 10) :: acc) := if_neg (Nat.not_lt.2 h)

theorem decDigits_eq_digits {fuel n : Nat} (hn : 0 < n) (hfuel : n < 10 ^ fuel) (acc : List Byte) :
    decDigits fuel n acc = (Nat.digits 10 n).reverse.map decimalDigit ++ acc := by
  induction fuel generalizing n acc with
  | zero =>
    rw [pow_zero] at hfuel
    omega
  | succ fuel ih =>
    rcases Nat.lt_or_ge n 10 with hlt | hge
    · rw [decDigits_of_lt hlt, Nat.digits_of_lt 10 n (Nat.ne_of_gt hn) hlt]
      rfl
    · have hrest : n / 10 < 10 ^ fuel := Nat.div_lt_of_lt_mul (by rwa [Nat.mul_comm, ← pow_succ])
      rw [decDigits_of_ge hge, ih (Nat.div_pos hge (by decide)) hrest, Nat.digits_def' (by decide) hn]
      simp

theorem dec_eq_digits {n : Nat} (hn : 0 < n) : dec n = (Nat.digits 10 n).reverse.map decimalDigit := by
  have hfuel : n < 10 ^ (n.log2 + 1) := Nat.lt_log2_self.trans_le (Nat.pow_le_pow_left (by decide) _)
  rw [dec, decDigits_eq_digits hn hfuel, List.append_nil]

@[simp] theorem dec_zero : dec 0 = [0x30#8] := rfl

theorem dec_value (n : Nat) : (dec n).foldl appendDecimal 0 = n := by
  rcases Nat.eq_zero_or_pos n with rfl | hn
  · rfl
  · calc (dec n).foldl appendDecimal 0
        = (Nat.digits 10 n).foldr (fun d acc => appendDecimal acc (decimalDigit d)) 0 := by
          rw [dec_eq_digits hn, List.foldl_map, List.foldl_reverse]
      _ = (Nat.digits 10 n).foldr (fun d acc => d + 10 * acc) 0 :=
          List.foldr_ext _ _ 0 fun d hd acc => appendDecimal_decimalDigit (Nat.digits_lt_base (by decide) hd) acc
      _ = n := (Nat.ofDigits_eq_foldr 10 _).symm.trans (Nat.ofDigits_digits 10 n)

theorem dec_digit {n : Nat} {ch : Byte} (h : ch ∈ dec n) : ∃ d < 10, ch = decimalDigit d := by
  rcases Nat.eq_zero_or_pos n with rfl | hn
  · exact ⟨0, by decide, List.mem_singleton.1 h⟩
  · rw [dec_eq_digits hn] at h
    obtain ⟨d, hd, rfl⟩ := List.mem_map.1 h
    exact ⟨d, Nat.digits_lt_base (by decide) (List.mem_reverse.1 hd), rfl⟩

theorem dec_ne_nil (n : Nat) : dec n ≠ [] := by
  rcases Nat.eq_zero_or_pos n with rfl | hn
  · exact List.cons_ne_nil _ _
  · simpa [dec_eq_digits hn, Nat.digits_eq_nil_iff_eq_zero] using Nat.ne_of_gt hn

/-- Only 0 starts with the digit 0: the most significant digit of the others is not 0. -/
theorem eq_zero_of_dec_leading_zero {n : Nat} (h : (dec n).head? = some 0x30#8) : n = 0 := by
  by_contra hne
  have hdigits : Nat.digits 10 n ≠ [] := Nat.digits_ne_nil_iff_ne_zero.2 hne
  have hfirst : decimalDigit ((Nat.digits 10 n).getLast hdigits) = 0x30#8 := by
    simpa [dec_eq_digits (Nat.pos_of_ne_zero hne), List.getLast?_eq_getLast_of_ne_nil hdigits] using h
  have hlt : (Nat.digits 10 n).getLast hdigits < 10 := Nat.digits_lt_base (by decide) (List.getLast_mem hdigits)
  have hvalue := decimalDigit_toNat hlt
  rw [hfirst] at hvalue
  exact Nat.getLast_digit_ne_zero 10 hne (by simpa using hvalue)

/-! ## Hexadecimal text (R177) -/

/-- The value of a hexadecimal text with one more digit behind it (R177). -/
def appendHex (acc : Nat) (ch : Byte) : Nat :=
  16 * acc + (if ch.toNat ≤ 0x39 then ch.toNat - 0x30 else ch.toNat - 0x57)

theorem hexDigit_range : ∀ d : BitVec 4, (0x30 ≤ (hexDigit d).toNat ∧ (hexDigit d).toNat ≤ 0x39) ∨
    (0x61 ≤ (hexDigit d).toNat ∧ (hexDigit d).toNat ≤ 0x66) := by decide

theorem appendHex_hexDigit (acc : Nat) (d : BitVec 4) : appendHex acc (hexDigit d) = 16 * acc + d.toNat := by
  have hdigit : ∀ d : BitVec 4,
      (if (hexDigit d).toNat ≤ 0x39 then (hexDigit d).toNat - 0x30 else (hexDigit d).toNat - 0x57) = d.toNat := by decide
  rw [appendHex, hdigit]

theorem hex8_digit {v : Word} {ch : Byte} (h : ch ∈ hex8 v) : ∃ d, ch = hexDigit d := by
  simp only [hex8, List.mem_cons, List.not_mem_nil, or_false] at h
  rcases h with h | h | h | h | h | h | h | h <;> exact ⟨_, h⟩

theorem hex8_value (v : Word) : (hex8 v).foldl appendHex 0 = v.toNat := by
  have hlt := v.isLt
  simp only [hex8, List.foldl_cons, List.foldl_nil, appendHex_hexDigit, BitVec.extractLsb'_toNat,
    Nat.shiftRight_eq_div_pow]
  omega

/-- Settles O46: the digits of the library's list have its value, and each nibble has its digit. -/
theorem numbersInTextAreTheNumbers : Obligations.NumbersInTextAreTheNumbers := by
  refine ⟨fun n => ⟨dec_value n, fun ch hch => ?range, dec_ne_nil n, fun h => ?leading⟩,
    fun v => ⟨rfl, fun ch hch => ?hexRange, hex8_value v⟩⟩
  case range =>
    obtain ⟨d, hd, rfl⟩ := dec_digit hch
    rw [decimalDigit_toNat hd]
    omega
  case leading => rw [eq_zero_of_dec_leading_zero h, dec_zero]
  case hexRange =>
    obtain ⟨d, rfl⟩ := hex8_digit hch
    exact hexDigit_range d

/-! ## Valid arguments (R172) -/

theorem blankName_eq_false_iff {name : List Byte} : blankName name = false ↔ ∃ ch ∈ name, ch ∉ whiteSpace := by
  simp [blankName]

/-- Settles O47: the three conjuncts of `validArgs` in turn. -/
theorem validDataAndNames : Obligations.ValidDataAndNames := by
  intro data name
  have hdata : 1 ≤ data.length ↔ data ≠ [] := List.length_pos_iff
  have hlines : (name.all fun ch => ch ≠ 0x0D#8 && ch ≠ 0x0A#8) = true ↔ 0x0D#8 ∉ name ∧ 0x0A#8 ∉ name := by
    simp [forall_and, List.forall_mem_ne']
  rw [validArgs, Bool.and_eq_true, Bool.and_eq_true, decide_eq_true_iff, Bool.not_eq_true', blankName_eq_false_iff,
    hdata, hlines, and_assoc, whiteSpace]

/-! ## The texts (R171, R173 to R175) -/

theorem terminate_eq_withCrlf (p : List Byte) : terminate p = withCrlf p := by
  have hends : p.drop (p.length - 2) = crlf ↔ crlf <:+ p := by
    rw [List.suffix_iff_eq_drop, eq_comm, crlf_length]
  exact if_congr hends rfl rfl

theorem payload_eq_withCrlf (d : List Byte) (lineSize : Nat) :
    payload d lineSize = withCrlf (encodeBytes d lineSize 0 true).1 := terminate_eq_withCrlf _

theorem partBytes_eq_drop (data : List Byte) (partSize k : Nat) :
    partBytes data partSize k = (data.take (partEnd data.length partSize k)).drop (partStart partSize k) :=
  List.drop_take.symm

theorem singleText_eq_singleFrame (data name : List Byte) (lineSize : Nat) :
    singleText data name lineSize = singleFrame data name lineSize := by
  unfold singleText singleFrame
  rw [payload_eq_withCrlf, List.append_assoc _ tEnd tSize]
  rfl

theorem partText_eq_partFrame (data name : List Byte) (partSize lineSize k : Nat) :
    partText data name partSize lineSize k = partFrame data name partSize lineSize k := by
  unfold partText partFrame
  rw [payload_eq_withCrlf, partBytes_eq_drop, List.append_assoc _ tEnd tSize, List.append_assoc _ tYpart tFrom]
  rfl

/-! ## The parts of the data (R175, R180)

Part `k` is what lies between the first `k - 1` parts and the first `k`, and the first `k` parts are the first
`k * partSize` bytes. -/

theorem lt_partCount_iff {partSize : Nat} (h : 1 ≤ partSize) (len k : Nat) :
    k < partCount len partSize ↔ k * partSize < len := by
  rw [partCount, Nat.lt_iff_add_one_le, Nat.le_div_iff_mul_le h, Nat.succ_mul]
  omega

theorem le_partCount_mul {partSize : Nat} (h : 1 ≤ partSize) (len : Nat) : len ≤ partCount len partSize * partSize :=
  Nat.not_lt.1 (mt (lt_partCount_iff h len _).2 (Nat.lt_irrefl _))

theorem partCount_pos {len partSize : Nat} (hsize : 1 ≤ partSize) (hlen : 1 ≤ len) : 0 < partCount len partSize := by
  rw [lt_partCount_iff hsize, Nat.zero_mul]
  exact hlen

/-- One part holds all data that fit it. -/
theorem partCount_eq_one {len partSize : Nat} (hlen : 1 ≤ len) (hfits : len ≤ partSize) :
    partCount len partSize = 1 := by
  have hsize : 1 ≤ partSize := hlen.trans hfits
  refine Nat.le_antisymm (Nat.not_lt.1 fun hlt => ?_) (partCount_pos hsize hlen)
  rw [lt_partCount_iff hsize, Nat.one_mul] at hlt
  exact Nat.not_le.2 hlt hfits

/-- Where the last part starts, and that it reaches to the end. -/
theorem last_partStart_bounds {len partSize : Nat} (hsize : 1 ≤ partSize) (hlen : 1 ≤ len) :
    (partCount len partSize - 1) * partSize < len ∧ len ≤ (partCount len partSize - 1) * partSize + partSize := by
  have hpos := partCount_pos hsize hlen
  refine ⟨(lt_partCount_iff hsize _ _).1 (Nat.sub_one_lt_of_lt hpos), ?_⟩
  rw [← Nat.succ_mul, Nat.succ_eq_add_one, Nat.sub_add_cancel hpos]
  exact le_partCount_mul hsize len

theorem partBytes_eq_drop_take (data : List Byte) (partSize k : Nat) :
    partBytes data partSize k = (data.take (k * partSize)).drop ((k - 1) * partSize) := by
  rw [partBytes_eq_drop, partEnd, partStart, ← List.take_eq_take_min]

theorem partBytes_length (data : List Byte) (partSize k : Nat) :
    (partBytes data partSize k).length = min (k * partSize) data.length - (k - 1) * partSize := by
  rw [partBytes_eq_drop_take, List.length_drop, List.length_take]

theorem partBytes_one_of_fits {data : List Byte} {partSize : Nat} (h : data.length ≤ partSize) :
    partBytes data partSize 1 = data := by
  rw [partBytes_eq_drop_take, Nat.one_mul, List.take_of_length_le h, Nat.sub_self, Nat.zero_mul, List.drop_zero]

theorem take_append_partBytes (data : List Byte) (partSize k : Nat) :
    data.take (k * partSize) ++ partBytes data partSize (k + 1) = data.take ((k + 1) * partSize) := by
  have hle : k * partSize ≤ (k + 1) * partSize := Nat.mul_le_mul_right _ (Nat.le_succ k)
  have hfront : data.take (k * partSize) = (data.take ((k + 1) * partSize)).take (k * partSize) := by
    rw [List.take_take, Nat.min_eq_left hle]
  rw [partBytes_eq_drop_take, Nat.add_sub_cancel, hfront, List.take_append_drop]

theorem flatMap_partBytes (data : List Byte) (partSize n : Nat) :
    (List.range n).flatMap (fun j => partBytes data partSize (j + 1)) = data.take (n * partSize) := by
  induction n with
  | zero => simp
  | succ n ih => rw [List.range_succ, List.flatMap_append, ih, List.flatMap_singleton, take_append_partBytes]

theorem foldl_combine_partBytes (data : List Byte) (partSize n : Nat) :
    (List.range n).foldl
      (fun acc j => combine acc (crc (partBytes data partSize (j + 2)) 0) (partBytes data partSize (j + 2)).length)
      (crc (partBytes data partSize 1) 0) = crc (data.take ((n + 1) * partSize)) 0 := by
  induction n with
  | zero => simp [partBytes_eq_drop_take]
  | succ n ih =>
    rw [List.range_succ, List.foldl_append, ih, List.foldl_cons, List.foldl_nil, ← crc_append_eq_combine,
      take_append_partBytes]

theorem take_partCount (data : List Byte) {partSize : Nat} (h : 1 ≤ partSize) :
    data.take (partCount data.length partSize * partSize) = data :=
  List.take_of_length_le (le_partCount_mul h _)

/-- Every part that is not the last is full. -/
theorem partBytes_length_of_lt {data : List Byte} {partSize k : Nat} (hsize : 1 ≤ partSize) (hk : 1 ≤ k)
    (hlt : k < partCount data.length partSize) : (partBytes data partSize k).length = partSize := by
  obtain ⟨j, rfl⟩ := Nat.exists_eq_add_of_le' hk
  have hfull := (lt_partCount_iff hsize _ _).1 hlt
  rw [partBytes_length, Nat.min_eq_left hfull.le, Nat.add_sub_cancel, Nat.succ_mul, Nat.add_sub_cancel_left]

/-- The last part is not empty and not too long. -/
theorem partBytes_length_last {data : List Byte} {partSize : Nat} (hsize : 1 ≤ partSize) (hdata : 1 ≤ data.length) :
    1 ≤ (partBytes data partSize (partCount data.length partSize)).length ∧
      (partBytes data partSize (partCount data.length partSize)).length ≤ partSize ∧
      (partBytes data partSize (partCount data.length partSize)).length =
        data.length - (partCount data.length partSize - 1) * partSize := by
  obtain ⟨hstart, hstop⟩ := last_partStart_bounds hsize hdata
  rw [partBytes_length, Nat.min_eq_right (le_partCount_mul hsize data.length)]
  omega

/-- A payload is read back in every mode: with or without CR LF of its own behind it. -/
theorem decodeRun_payload (mode : DecMode) (d : List Byte) (lineSize : Nat) :
    (decodeRun mode (payload d lineSize) .crlf).1 = d := by
  have hrun := reads_encodeBytes mode d lineSize 0 true
  rw [lineState_zero] at hrun
  unfold payload terminate
  split
  case isTrue => rw [hrun.decodeRun_eq]
  case isFalse => rw [(hrun.append (reads_crlf mode _)).decodeRun_eq, List.append_nil]

/-! ## The articles of the list (R175) -/

theorem multiArticles_of_fits {data : List Byte} {partSize : Nat} (h : data.length ≤ partSize) (name : List Byte)
    (lineSize : Nat) : multiArticles data name partSize lineSize = [singleArticle data name lineSize] := if_pos h

theorem multiArticles_of_parts {data : List Byte} {partSize : Nat} (h : partSize < data.length) (name : List Byte)
    (lineSize : Nat) : multiArticles data name partSize lineSize =
      (List.range (partCount data.length partSize)).map fun j => partArticle data name partSize lineSize (j + 1) :=
  if_neg (Nat.not_le.2 h)

theorem multiArticles_length {data : List Byte} (hdata : 1 ≤ data.length) (name : List Byte) (partSize lineSize : Nat) :
    (multiArticles data name partSize lineSize).length = partCount data.length partSize := by
  rcases Nat.lt_or_ge partSize data.length with hparts | hfits
  · rw [multiArticles_of_parts hparts, List.length_map, List.length_range]
  · rw [multiArticles_of_fits hfits, partCount_eq_one hdata hfits, List.length_singleton]

/-- What article `k + 1` of the list holds, in the single-part form too: there the one part is all of the data. -/
theorem multiArticles_getElem? {data name : List Byte} {partSize lineSize k : Nat} {art : Article}
    (hdata : 1 ≤ data.length) (h : (multiArticles data name partSize lineSize)[k]? = some art) :
    (art.text = if data.length ≤ partSize then singleFrame data name lineSize
        else partFrame data name partSize lineSize (k + 1)) ∧
      art.partNumber = k + 1 ∧ art.totalParts = partCount data.length partSize ∧ art.crc32 = crc data 0 ∧
      art.partCrc32 = crc (partBytes data partSize (k + 1)) 0 := by
  rcases Nat.lt_or_ge partSize data.length with hparts | hfits
  · rw [multiArticles_of_parts hparts, List.getElem?_map, Option.map_eq_some_iff] at h
    obtain ⟨j, hj, rfl⟩ := h
    obtain ⟨-, rfl⟩ := List.getElem?_eq_some_iff.1 hj
    rw [List.getElem_range, if_neg (Nat.not_le.2 hparts)]
    exact ⟨partText_eq_partFrame .., rfl, rfl, rfl, rfl⟩
  · rw [multiArticles_of_fits hfits, List.getElem?_singleton] at h
    split at h
    case isTrue hk =>
      cases h
      subst hk
      rw [if_pos hfits, partCount_eq_one hdata hfits, partBytes_one_of_fits hfits]
      exact ⟨singleText_eq_singleFrame .., rfl, rfl, rfl, rfl⟩
    case isFalse => cases h

/-- Settles O51: the first `n` parts are the first `n * partSize` bytes, and all the parts are all of them. -/
theorem partsCoverTheData : Obligations.PartsCoverTheData := by
  intro data name partSize lineSize isRaw hsize _ hne
  have hdata : 1 ≤ data.length := List.length_pos_iff.2 hne
  have hlength := multiArticles_length hdata name partSize lineSize
  refine ⟨hlength, fun hfits => multiArticles_of_fits hfits name lineSize, fun k hk => ?fields, ?cover,
    fun k hk hlt => partBytes_length_of_lt hsize hk hlt, partBytes_length_last hsize hdata,
    fun k => decodeRun_payload (blockMode isRaw) _ lineSize, ?combined⟩
  case fields =>
    have hart := List.getElem?_eq_getElem (hk.trans_eq hlength.symm)
    obtain ⟨-, hfields⟩ := multiArticles_getElem? hdata hart
    exact ⟨_, hart, hfields⟩
  case cover => rw [flatMap_partBytes, take_partCount data hsize]
  case combined =>
    rw [foldl_combine_partBytes, Nat.sub_add_cancel (partCount_pos hsize hdata), take_partCount data hsize]

/-! ## The commands (R178, R179, R181) -/

theorem require_require (p q : Prop) [Decidable p] [Decidable q] (c : FaultCode) (s : State) (k : Result) :
    require p c s (require q c s k) = require (p ∧ q) c s k := by
  by_cases hp : p
  · rw [require_of_true hp]
    exact if_congr (and_iff_right hp).symm rfl rfl
  · rw [require_of_false hp, require_of_false fun h => hp h.1]

theorem withFramerOperands_of_operands {s : State} {data name : List Byte} (hdata : ChunkIs s data)
    (hname : NameIs s name) (hline : 1 ≤ s.line.toNat) (k : List Byte → List Byte → Result) :
    withFramerOperands s k = k data name := by
  obtain ⟨hdataLen, hdata⟩ := hdata
  obtain ⟨hnameLen, hname⟩ := hname
  rw [withFramerOperands, require_of_true hdataLen, require_of_true hnameLen, require_of_true hline, hdata, hname,
    withBytes_some, withBytes_some]

theorem withFramerOperands_out_of_range {s : State}
    (h : s.cfg.ibufSize < s.inLen.toNat ∨ s.cfg.nbufSize < s.nameLen.toNat ∨ s.line = 0)
    (k : List Byte → List Byte → Result) : withFramerOperands s k = .next (raise .eRange s) := by
  rw [withFramerOperands, require_require, require_require]
  refine require_of_false (fun ⟨⟨hdata, hname⟩, hline⟩ => ?_) ..
  rcases h with h | h | h
  · exact Nat.not_le.2 h hdata
  · exact Nat.not_le.2 h hname
  · exact (one_le_toNat_iff _).1 hline h

theorem selectedArticle_of_one_le {s : State} (h : 1 ≤ s.part.toNat) (data name : List Byte) :
    selectedArticle s data name = (multiArticles data name s.psize.toNat s.line.toNat)[s.part.toNat - 1]? := if_pos h

theorem selectedArticle_of_outside {s : State} {data name : List Byte}
    (h : s.part = 0 ∨ (multiArticles data name s.psize.toNat s.line.toNat).length < s.part.toNat) :
    selectedArticle s data name = none := by
  rcases h with h | h
  · exact if_neg fun hpart => (one_le_toNat_iff _).1 hpart h
  · rw [selectedArticle_of_one_le (Nat.one_le_of_lt h), List.getElem?_eq_none (Nat.le_sub_one_of_lt h)]

/-! What each command answers with its operands in place, in the order of its checks -/

section
variable {s : State} {data name : List Byte} (hdata : ChunkIs s data) (hname : NameIs s name)
  (hline : 1 ≤ s.line.toNat)
include hdata hname hline

theorem execFrmSingle_of_invalid (h : validArgs data name = false) : execFrmSingle s = .next (raise .eArg s) := by
  rw [execFrmSingle, withFramerOperands_of_operands hdata hname hline, require_of_false (Bool.eq_false_iff.1 h)]

theorem execFrmSingle_of_valid (h : validArgs data name = true) :
    execFrmSingle s = deliverArticle s (singleArticle data name s.line.toNat) := by
  rw [execFrmSingle, withFramerOperands_of_operands hdata hname hline, require_of_true h]

theorem execFrmMulti_of_invalid (h : ¬(validArgs data name = true ∧ 0 < s.psize.toInt)) :
    execFrmMulti s = .next (raise .eArg s) := by
  rw [execFrmMulti, withFramerOperands_of_operands hdata hname hline, signedPsize, require_of_false h]

theorem execFrmMulti_of_no_article (h : validArgs data name = true) (hsize : 0 < s.psize.toInt)
    (hnone : selectedArticle s data name = none) : execFrmMulti s = .next (raise .eRange s) := by
  rw [execFrmMulti, withFramerOperands_of_operands hdata hname hline, signedPsize, require_of_true ⟨h, hsize⟩, hnone]

theorem execFrmMulti_of_article {art : Article} (h : validArgs data name = true) (hsize : 0 < s.psize.toInt)
    (hsome : selectedArticle s data name = some art) : execFrmMulti s = deliverArticle s art := by
  rw [execFrmMulti, withFramerOperands_of_operands hdata hname hline, signedPsize, require_of_true ⟨h, hsize⟩, hsome]

end

theorem deliverArticle_of_fits {s : State} {art : Article} (h : art.text.length ≤ s.cfg.obufSize) :
    deliverArticle s art = .next (complete (putOutput art.text (putArticle art s))) := deliver_of_fits h _

theorem deliverArticle_of_too_long {s : State} {art : Article} (h : s.cfg.obufSize < art.text.length) :
    deliverArticle s art = .next (raise .eOvf s) := deliver_of_too_long h _

theorem completed_putArticle (out : List Byte) (art : Article) (s : State) :
    Completed s (complete (putOutput out (putArticle art s))) := rfl

/-- Settles O48: the command delivers the one article, whose text is the frame of R174. -/
theorem frmSingleFramesTheChunk : Obligations.FrmSingleFramesTheChunk := by
  intro s data name hcfg hdata hname hline hvalid hfits
  obtain ⟨-, ⟨-, hsize⟩, -⟩ := hcfg
  have htext : (singleArticle data name s.line.toNat).text = singleFrame data name s.line.toNat :=
    singleText_eq_singleFrame ..
  have hexec := (execFrmSingle_of_valid hdata hname hline hvalid).trans (deliverArticle_of_fits hfits)
  refine ⟨htext, _, hexec, ?_, rfl, rfl, rfl, rfl, completed_putArticle ..⟩
  rw [← htext]
  exact outputIs_complete_putOutput (hfits.trans_lt hsize) _

/-- Settles O49: the command delivers the selected article, and its numbers fit their registers. -/
theorem frmMultiFramesTheSelectedPart : Obligations.FrmMultiFramesTheSelectedPart := by
  intro s data name art hcfg hdata hname hline hvalid hsigned hpart hart hfits
  obtain ⟨⟨-, hinSize⟩, ⟨-, hsize⟩, -⟩ := hcfg
  have hlen := one_le_length_of_validArgs hvalid
  obtain ⟨htext, hnumber, htotal, hcrc, hpartCrc⟩ := multiArticles_getElem? hlen hart
  rw [Nat.sub_add_cancel hpart] at htext hnumber hpartCrc
  rw [partBytes_eq_drop_take] at hpartCrc
  have hselected := (selectedArticle_of_one_le hpart data name).trans hart
  have hexec := (execFrmMulti_of_article hdata hname hline hvalid hsigned hselected).trans (deliverArticle_of_fits hfits)
  have hapart : BitVec.ofNat 64 art.partNumber = s.part := by rw [hnumber, BitVec.ofNat_toNat, BitVec.setWidth_eq]
  have htotalLe : art.totalParts ≤ data.length :=
    totalParts_le_of_mem hlen (one_le_psize_of_signedPsize_pos hsigned) (List.mem_of_getElem? hart)
  have hatotal : (BitVec.ofNat 64 art.totalParts).toNat = art.totalParts :=
    toNat_ofNat_of_lt (htotalLe.trans_lt (hdata.length_le.trans_lt hinSize))
  exact ⟨htext, _, hexec, outputIs_complete_putOutput (hfits.trans_lt hsize) _, hapart,
    (congrArg BitVec.toNat hapart).trans hnumber.symm, hatotal.trans htotal, hatotal, hcrc, rfl, rfl, hpartCrc,
    completed_putArticle ..⟩

/-- Settles O50: each check in turn, with those before it passed. -/
theorem framerFaultsInOrder : Obligations.FramerFaultsInOrder := by
  refine ⟨?range, fun s data name hdata hname hne => ?operands⟩
  case range =>
    rintro s i (rfl | rfl) h
    · exact withFramerOperands_out_of_range h _
    · exact withFramerOperands_out_of_range h _
  case operands =>
    have hline := (one_le_toNat_iff _).2 hne
    refine ⟨fun hinvalid => ⟨execFrmSingle_of_invalid hdata hname hline hinvalid, ?multiInvalid⟩, fun hsize => ?psize,
      fun hvalid hsize hpart => ?part, fun hvalid hlong => ?single, fun art hvalid hsize hpart hart hlong => ?multi⟩
    case multiInvalid => exact execFrmMulti_of_invalid hdata hname hline fun h => by simp [hinvalid] at h
    case psize => exact execFrmMulti_of_invalid hdata hname hline fun h => Int.not_lt.2 hsize h.2
    case part => exact execFrmMulti_of_no_article hdata hname hline hvalid hsize (selectedArticle_of_outside hpart)
    case single => exact (execFrmSingle_of_valid hdata hname hline hvalid).trans (deliverArticle_of_too_long hlong)
    case multi =>
      have hselected := (selectedArticle_of_one_le hpart data name).trans hart
      exact (execFrmMulti_of_article hdata hname hline hvalid hsize hselected).trans (deliverArticle_of_too_long hlong)

theorem readReg_complete_putArticle {reg : Reg} (h : reg ∉ [Reg.outLen, .apart, .atotal, .fcrc, .pcrc, .status])
    (out : List Byte) (art : Article) (s : State) :
    readReg (complete (putOutput out (putArticle art s))) reg = readReg s reg := by
  cases reg with
  | outLen | apart | atotal | fcrc | pcrc | status => simp at h
  | _ => rfl

/-- The two forms of what a framer command answers. -/
theorem exec_framer_next {i : Instr} (hi : i = .frmSingle ∨ i = .frmMulti) {s t : State} (h : exec i s = .next t) :
    (∃ art, t = complete (putOutput art.text (putArticle art s))) ∨ ∃ c, t = raise c s := by
  rcases hi with rfl | rfl
  · rcases execFrmSingle_next h with ⟨data, name, -, -, -, -, h⟩ | h | h | h
    · exact .inl ⟨_, h⟩
    all_goals exact .inr ⟨_, h⟩
  · rcases execFrmMulti_next h with ⟨data, name, art, -, -, -, -, -, -, h⟩ | h | h | h
    · exact .inl ⟨art, h⟩
    all_goals exact .inr ⟨_, h⟩

/-- Settles O52: neither the results of the two commands nor the fault entry change anything else. -/
theorem framerCommandsFrame : Obligations.FramerCommandsFrame := by
  intro s t i hi h
  rcases exec_framer_next hi h with ⟨art, rfl⟩ | ⟨c, rfl⟩
  · exact ⟨fun reg hreg => readReg_complete_putArticle hreg .., fun _ => rfl, fun _ => rfl, rfl, rfl, rfl⟩
  · exact ⟨sameRegsBut_raise (by decide) c s, fun _ => rfl, fun _ => rfl, rfl, rfl, rfl⟩

end Sys2Proof.Machine
end

section
/-! PROOFS. The family 60_exceptions.md: a fault is precise. -/

namespace Sys2Proof.Machine

/-! ## Precise faults (R203) -/

/-- A next state with a code other than 0 comes from the fault entry, since a command that completes leaves code 0. -/
theorem exists_eq_raise_of_statusCode_ne_zero {i : Instr} {s t : State} (h : exec i s = .next t)
    (hcode : statusCode t.status ≠ 0) : ∃ c, t = raise c s := by
  rcases exec_next h with ⟨u, rfl⟩ | ⟨c, -, hraise⟩
  · exact absurd (statusCode_complete _) hcode
  · exact ⟨c, hraise⟩

/-- Settles O53: the state is that of the fault entry, which sets `STICKY` and writes `STATUS` alone. -/
theorem faultsArePrecise : Obligations.FaultsArePrecise := by
  intro i s t h hcode
  obtain ⟨c, rfl⟩ := exists_eq_raise_of_statusCode_ne_zero h hcode
  exact ⟨statusSticky_raise c s, sameRegsBut_raise (by decide) c s, fun b j => by rw [buffer_raise], rfl, rfl, rfl⟩

end Sys2Proof.Machine
end

section
/-! PROOFS. The family 70_reset_and_hazards.md: the capacities under which no output overflows, the state at reset, and the
commands straight after it. -/

namespace Sys2Proof.Machine

/-! ## Outputs that cannot overflow (R242)

Code 5 comes from the last check of a command alone, so it tells that every earlier check has passed. -/

theorem require_next_of_overflow {p : Prop} [Decidable p] {c : FaultCode} {s t : State} {k : Result}
    (h : require p c s k = .next t) (hcode : statusCode t.status = 5) (hc : codeNumber c ≠ 5) : p ∧ k = .next t := by
  rcases require_next h with hpass | ⟨-, rfl⟩
  · exact hpass
  · exact absurd ((statusCode_raise c s).symm.trans hcode) hc

theorem withInState_next_of_overflow {s t : State} {k : DecState → Result} (h : withInState s k = .next t)
    (hcode : statusCode t.status = 5) : ∃ s0, inState s = some s0 ∧ k s0 = .next t := by
  rcases withInState_next h with hpass | ⟨-, rfl⟩
  · exact hpass
  · exact absurd ((statusCode_raise .eState s).symm.trans hcode) (by decide)

theorem deliver_ne_overflow {s s' t : State} {out : List Byte} (hfits : out.length ≤ s.cfg.obufSize)
    (h : deliver s out s' = .next t) : statusCode t.status ≠ 5 := by
  rw [deliver_of_fits hfits] at h
  cases h
  rw [statusCode_complete]
  decide

theorem ChunkIs.length_eq {s : State} {data : List Byte} (h : ChunkIs s data) : data.length = s.inLen.toNat := by
  obtain ⟨-, -, hlength⟩ := chunkIs_iff_chunkFront.1 h
  exact hlength

/-- A cell of the table has one output byte at most (R140). -/
theorem decodeRun_length_le (mode : DecMode) (data : List Byte) (s0 : DecState) :
    (decodeRun mode data s0).1.length ≤ data.length := by
  induction data generalizing s0 with
  | nil => exact Nat.le_refl 0
  | cons c rest ih =>
    have hcell : (decStep mode s0 c).out.toList.length ≤ 1 := Option.length_toList_le
    have hrest := ih (decStep mode s0 c).next
    rw [decodeRun, List.length_append, List.length_cons]
    omega

theorem incResult_length_le {s : State} {s0 : DecState} {q : IncResult} (h : incResult s s0 = some q) :
    q.out.length ≤ s.inLen.toNat := by
  refine le_trans ?_ (incResult_consumed_le h)
  unfold incResult at h
  split at h
  · cases h
    obtain ⟨-, hout, -⟩ := incrementalStopsAtTheTerminator (chunkFront s) s0
    exact hout
  · cases h

theorem terminate_length_le (p : List Byte) : (terminate p).length ≤ p.length + 2 := by
  unfold terminate
  split
  · exact Nat.le_add_right ..
  · exact List.length_append.le

theorem execEncBlk_ne_overflow {s t : State} {isEnd : Bool}
    (hsize : encMaxLen s.cfg.maxLen s.inLen.toNat s.line.toNat ≤ s.cfg.obufSize)
    (h : execEncBlk isEnd s = .next t) : statusCode t.status ≠ 5 := by
  intro hcode
  obtain ⟨hlen, h⟩ := require_next_of_overflow h hcode (by decide)
  obtain ⟨-, h⟩ := require_next_of_overflow h hcode (by decide)
  obtain ⟨hcol, h⟩ := require_next_of_overflow h hcode (by decide)
  obtain ⟨data, hdata, h⟩ := withBytes_next h
  have hbound := encMaxLenBoundsTheOutput s.cfg.maxLen data _ _ isEnd hcol
  rw [ChunkIs.length_eq ⟨hlen, hdata⟩] at hbound
  exact deliver_ne_overflow (hbound.trans hsize) h hcode

theorem execDecBlk_ne_overflow {s t : State} {isRaw : Bool} (hsize : s.inLen.toNat ≤ s.cfg.obufSize)
    (h : execDecBlk isRaw s = .next t) : statusCode t.status ≠ 5 := by
  intro hcode
  obtain ⟨hlen, h⟩ := require_next_of_overflow h hcode (by decide)
  obtain ⟨s0, -, h⟩ := withInState_next_of_overflow h hcode
  obtain ⟨data, hdata, h⟩ := withBytes_next h
  have hbound := decodeRun_length_le (blockMode isRaw) data s0
  rw [ChunkIs.length_eq ⟨hlen, hdata⟩] at hbound
  exact deliver_ne_overflow (hbound.trans hsize) h hcode

theorem execDecInc_ne_overflow {s t : State} (hsize : s.inLen.toNat ≤ s.cfg.obufSize)
    (h : execDecInc s = .next t) : statusCode t.status ≠ 5 := by
  intro hcode
  obtain ⟨-, h⟩ := require_next_of_overflow h hcode (by decide)
  obtain ⟨s0, -, h⟩ := withInState_next_of_overflow h hcode
  cases hresult : incResult s s0 with
  | none => simp [hresult] at h
  | some q =>
    rw [hresult] at h
    exact deliver_ne_overflow ((incResult_length_le hresult).trans hsize) h hcode

/-- Settles O56: the encoder's output is bounded by `encMaxLen`, the decoder's by its input, and CR LF is two bytes. -/
theorem safeCapacityMeansNoOverflow : Obligations.SafeCapacityMeansNoOverflow := by
  refine ⟨fun s t isEnd => execEncBlk_ne_overflow, fun s t isRaw => execDecBlk_ne_overflow,
    fun s t => execDecInc_ne_overflow, fun rule d lineSize hline => ?payload⟩
  case payload =>
    exact (terminate_length_le _).trans (Nat.add_le_add_right (encMaxLenBoundsTheOutput rule d lineSize 0 true hline) 2)

/-! ## The state at reset (R230, R231) -/

theorem readReg_hostReset (s : State) (reg : Reg) : readReg (hostReset s) reg = if reg = .line then 128 else 0 := by
  cases reg <;> rfl

theorem readByte_hostReset (s : State) (b : Config.Buf) (i : Nat) : readByte (buffer (hostReset s) b) i = none := by
  cases b <;> rfl

/-- Settles O1: `State.reset` is what an external reset leaves of it. -/
theorem resetLeavesTheSpecValues : Obligations.ResetLeavesTheSpecValues :=
  ⟨⟨readReg_hostReset State.reset, readByte_hostReset State.reset⟩,
    fun s => ⟨_, rfl, readReg_hostReset s, readByte_hostReset s, rfl⟩⟩

/-- Settles O59: the capacities the model chose are admissible. -/
theorem goodHoldsAtReset : Obligations.GoodHoldsAtReset := good_hostReset (s := State.reset) (by decide)

/-! ## The CRC functions at length 0 (R83, R89) -/

theorem mul_zero_word (a : Word) : mul a 0 = 0 := by
  obtain ⟨-, -, -, -, hzero, -⟩ := mulLaws a 0 0
  exact hzero

theorem combine_length_zero (c1 c2 : Word) : combine c1 c2 0 = c1 ^^^ c2 := by
  rw [combine, mul_pow256]
  rfl

theorem zeros_length_zero (c : Word) : zeros c 0 = c := (zeros_eq_crc c 0).trans (crc_nil c)

theorem unzero_length_zero (c : Word) : unzero c 0 = c := (zeros_length_zero _).symm.trans (zeros_unzero c 0)

/-! ## The commands straight after reset (R232) -/

/-- The state straight after reset at the parameters `c`. -/
def afterReset (c : Config.Params) : State := { State.reset with cfg := c }

theorem complete_status_eq_zero {s : State} (h : s.status = 0) : (complete s).status = 0 := by
  rw [complete_status, h]
  rfl

section
variable (c : Config.Params)

theorem chunkIs_afterReset : ChunkIs (afterReset c) [] := ⟨Nat.zero_le _, readBytes_zero _⟩

theorem nameIs_afterReset : NameIs (afterReset c) [] := ⟨Nat.zero_le _, readBytes_zero _⟩

theorem col_lt_line_afterReset : (afterReset c).col.toNat < (afterReset c).line.toNat := Nat.zero_lt_succ 127

theorem one_le_line_afterReset : 1 ≤ (afterReset c).line.toNat := Nat.one_le_of_lt (col_lt_line_afterReset c)

theorem putR_afterReset {v w : Word} (h : v = w) :
    ∃ t, putR v (afterReset c) = .next t ∧ t.status = 0 ∧ t.r = w :=
  ⟨_, rfl, complete_status_eq_zero rfl, h⟩

/-- An empty output fits at every capacity. -/
theorem deliver_nil_afterReset {s' : State} (h : s'.status = 0) :
    ∃ t, deliver (afterReset c) [] s' = .next t ∧ t.status = 0 ∧ t.outLen = 0 :=
  ⟨_, deliver_of_fits (Nat.zero_le _) s', complete_status_eq_zero h, rfl⟩

theorem execEncBlk_afterReset (isEnd : Bool) :
    ∃ t, execEncBlk isEnd (afterReset c) = .next t ∧ t.status = 0 ∧ t.outLen = 0 := by
  rw [execEncBlk_of_chunk (chunkIs_afterReset c) (col_lt_line_afterReset c)]
  exact deliver_nil_afterReset c rfl

theorem execDecBlk_afterReset (isRaw : Bool) :
    ∃ t, execDecBlk isRaw (afterReset c) = .next t ∧ t.status = 0 ∧ t.outLen = 0 := by
  rw [execDecBlk_of_chunk (chunkIs_afterReset c) (s0 := .crlf) rfl]
  exact deliver_nil_afterReset c rfl

theorem execDecInc_afterReset : ∃ t, execDecInc (afterReset c) = .next t ∧ t.status = 0 ∧ t.outLen = 0 := by
  rw [execDecInc_of_chunk (chunkIs_afterReset c) (s0 := .crlf) rfl rfl]
  exact deliver_nil_afterReset c rfl

theorem execEncMaxlen_afterReset (h : c.maxLen = .dflt) :
    ∃ t, execEncMaxlen (afterReset c) = .next t ∧ t.status = 0 ∧ t.maxlen = 0 := by
  have hbound : encMaxLen (afterReset c).cfg.maxLen (afterReset c).n.toNat (afterReset c).line.toNat = 0 :=
    congrArg (encMaxLen · 0 128) h
  exact ⟨_, execEncMaxlen_of_fits ((one_le_toNat_iff _).1 (one_le_line_afterReset c)) (by rw [hbound]; decide),
    complete_status_eq_zero rfl, congrArg (BitVec.ofNat 64) hbound⟩

/-- The empty chunk is no valid article (R172). -/
theorem execFrmSingle_afterReset : execFrmSingle (afterReset c) = .next (raise .eArg (afterReset c)) :=
  execFrmSingle_of_invalid (chunkIs_afterReset c) (nameIs_afterReset c) (one_le_line_afterReset c) rfl

theorem execFrmMulti_afterReset : execFrmMulti (afterReset c) = .next (raise .eArg (afterReset c)) :=
  execFrmMulti_of_invalid (chunkIs_afterReset c) (nameIs_afterReset c) (one_le_line_afterReset c)
    fun ⟨hvalid, _⟩ => nomatch hvalid

end

/-- Settles O57: at reset no operand is out of range, the chunk and the filename are empty, and `A`, `B`, `N` are 0. -/
theorem commandsStraightAfterReset : Obligations.CommandsStraightAfterReset := by
  intro c s hs
  obtain rfl : s = afterReset c := hs
  refine ⟨List.forall_iff_forall_mem.1 ⟨?upd, ?comb, ?zeros, ?unzero, ?mul⟩,
    List.forall_iff_forall_mem.1 ⟨?pow2, ?pow256⟩,
    List.forall_iff_forall_mem.1 ⟨execEncBlk_afterReset c false, execEncBlk_afterReset c true,
      execDecBlk_afterReset c false, execDecBlk_afterReset c true, execDecInc_afterReset c⟩,
    execEncMaxlen_afterReset c, List.forall_iff_forall_mem.1 ⟨execFrmSingle_afterReset c, execFrmMulti_afterReset c⟩⟩
  case upd =>
    obtain ⟨t, hput, hresult⟩ := putR_afterReset c (crc_nil 0)
    exact ⟨t, (execCrcUpd_of_chunk (chunkIs_afterReset c)).trans hput, hresult⟩
  case comb => exact putR_afterReset c (combine_length_zero 0 0)
  case zeros => exact putR_afterReset c (zeros_length_zero 0)
  case unzero => exact putR_afterReset c (unzero_length_zero 0)
  case mul => exact putR_afterReset c (mul_zero_word 0)
  case pow2 => exact putR_afterReset c (pow2_eq_xtimes 0)
  case pow256 => exact putR_afterReset c (pow2_eq_xtimes 0)

end Sys2Proof.Machine
end
